-- ==== Sys2Proof/Word.lean ====
section
/-! DEFINITION. The 32-bit value type and the memory Word of the block.

The spec's "Word" is the unit of memory, a record of four fields (10_state.md R18, 30_encoding.md R59); its 32-bit
integers are "Int32" (00_scope.md R10). The two types here keep those roles apart: `I32` and `Word`. -/

namespace Sys2Proof

/-- Int32, the type of every value (00_scope.md R10: WORD_BITS is 32, two's complement): register contents, the pc,
virtual addresses, the `ra`, `rb` and `p` fields of a Word. Its signed reading is `BitVec.toInt`. -/
abbrev I32 := BitVec 32

/-- An opcode tag: one of the 27 tags of 30_encoding.md R61, or an unrecognized value (R18; 8 bits wide in the
reference layout of R60). -/
abbrev Tag := BitVec 8

/-- A Word, the unit of memory, in the spec's normative form, the four-field record (10_state.md R18, 30_encoding.md
R59). Any tag may stand in `op`, recognized or not: memory holds whatever the loader put there (R132). -/
structure Word where
  op : Tag
  ra : I32
  rb : I32
  p : I32
deriving DecidableEq, Repr

end Sys2Proof
end

