-- ==== Sys2Proof/Config.lean ====
section
/-! DEFINITION. The implementation parameters of 00_scope.md R9, each under a name of its own (D27), and the
configuration that the CONFIG port fixes at reset. -/

namespace Sys2Proof

namespace Config

/-- NREGS (R9, 10_state.md R20). -/
abbrev nRegs : Nat := 10

/-- OVF_MIN (R9, R15). -/
abbrev ovfMin : Int := -32767

/-- OVF_MAX (R9, R15). -/
abbrev ovfMax : Int := 32767

/-- SEL_REG: r8, the register SYSCALL reads as its selector (R9, 10_state.md R21). -/
abbrev selReg : Fin nRegs := 8

/-- ARG_REG: r9, the register SYSCALL reads as its argument (R9, 10_state.md R21). -/
abbrev argReg : Fin nRegs := 9

/-- SEL_READ (R9, 43_system.md R107). -/
abbrev selRead : I32 := 1

/-- SEL_WRITE (R9, 43_system.md R108). -/
abbrev selWrite : I32 := 2

/-- UNMAPPED, the sentinel of a page-table entry without a frame (R9, 10_state.md R30). -/
abbrev unmapped : Int := -1

/-- UNUSED, what an unused field of a Word is written as (R9, D5, 10_state.md R19). -/
abbrev unused : I32 := -1

/-- LOAD_BASE (R9, 70_reset_and_hazards.md R132). -/
abbrev loadBase : Nat := 0

/-- The conventional value of START_PC (R9, D3); the START port takes any value. -/
abbrev startPc : I32 := 0

/-- The largest size the CONFIG port accepts: sizes are Int32 (70_reset_and_hazards.md R131, D13). -/
abbrev maxSize : Nat := 2 ^ 31 - 1

/-- DESIGN CHOICE (log entry 1, unsafe): the value `State.reset` gives each register. REG_INIT is OPEN (D2). -/
abbrev regInit : Vector I32 nRegs := Vector.replicate nRegs 0

/-- DESIGN CHOICE (log entry 4, unsafe): the EMPTY_P of `State.reset`. EMPTY_P is OPEN (D4). -/
abbrev emptyP : I32 := 0

end Config

/-- What is fixed when the block is constructed and never changes while it runs (10_state.md R32): the three sizes of
the CONFIG port, and the OPEN parameter EMPTY_P, the payload of a never-written slot (R19, D4). The sizes are natural
numbers: the CONFIG port refuses every other integer (R131). -/
structure Configuration where
  virtualSize : Nat
  physicalSize : Nat
  pageSize : Nat
  emptyP : I32
deriving DecidableEq, Repr

/-- DESIGN CHOICE (log entry 3, unsafe): the configuration of `State.reset`, the sizes of the document's own example
(95_test_vectors.md W1: 2048/1024/4). -/
def Config.resetConfiguration : Configuration where
  virtualSize := 2048
  physicalSize := 1024
  pageSize := 4
  emptyP := Config.emptyP

end Sys2Proof
end

