-- ==== Sys2Proof/Syntax.lean ====
section
/-! DEFINITION. The instructions, one constructor per row of spec/opcode_table.json (30_encoding.md R61). -/

namespace Sys2Proof

/-- A register number, 0 to NREGS-1 (10_state.md R20). Decode turns a Word's register field into one, or rejects the
Word (30_encoding.md R64), so the machine never sees a register field out of range. -/
abbrev Reg := Fin Config.nRegs

/-- An instruction: its tag and its USED fields only, in the order ra, rb, p (30_encoding.md R61, R62). An unused field
is no part of an instruction, since no instruction reads one (R62). `data` has no operand: the payload of a DATA word
is "not an operand" and decode never reads it (R61, R62). -/
inductive Instr where
  /-- EMPTY, tag 0x00 (43_system.md R105). -/
  | empty
  /-- DATA, tag 0x01 (43_system.md R104). -/
  | data
  /-- LDI ra, p, tag 0x02 (40_data_transfer.md R74). -/
  | ldi (ra : Reg) (p : I32)
  /-- LDD ra, p, tag 0x03 (R75). -/
  | ldd (ra : Reg) (p : I32)
  /-- LDX ra, rb, tag 0x04 (R76). -/
  | ldx (ra rb : Reg)
  /-- STD ra, p, tag 0x05 (R77). -/
  | std (ra : Reg) (p : I32)
  /-- STX ra, rb, tag 0x06 (R78). -/
  | stx (ra rb : Reg)
  /-- MOVE ra, rb, tag 0x07 (R79). -/
  | move (ra rb : Reg)
  /-- ADD ra, rb, tag 0x08 (41_arithmetic.md R83). -/
  | add (ra rb : Reg)
  /-- SUB ra, rb, tag 0x09 (R84). -/
  | sub (ra rb : Reg)
  /-- MULT ra, rb, tag 0x0A (R85). -/
  | mult (ra rb : Reg)
  /-- ADDI ra, p, tag 0x0B (R86). -/
  | addi (ra : Reg) (p : I32)
  /-- SUBI ra, p, tag 0x0C (R87). -/
  | subi (ra : Reg) (p : I32)
  /-- JMP p, tag 0x0D (42_control.md R92). -/
  | jmp (p : I32)
  /-- JMPIM p, tag 0x0E (R93). -/
  | jmpim (p : I32)
  /-- JMPIG ra, rb, tag 0x0F (R94). -/
  | jmpig (ra rb : Reg)
  /-- JMPIL ra, rb, tag 0x10 (R95). -/
  | jmpil (ra rb : Reg)
  /-- JMPIE ra, rb, tag 0x11 (R96). -/
  | jmpie (ra rb : Reg)
  /-- JMPIGK rb, p, tag 0x12 (R97). -/
  | jmpigk (rb : Reg) (p : I32)
  /-- JMPILK rb, p, tag 0x13 (R98). -/
  | jmpilk (rb : Reg) (p : I32)
  /-- JMPIEK rb, p, tag 0x14 (R99). -/
  | jmpiek (rb : Reg) (p : I32)
  /-- JMPIGM rb, p, tag 0x15 (R100). -/
  | jmpigm (rb : Reg) (p : I32)
  /-- JMPILM rb, p, tag 0x16 (R101). -/
  | jmpilm (rb : Reg) (p : I32)
  /-- JMPIEM rb, p, tag 0x17 (R102). -/
  | jmpiem (rb : Reg) (p : I32)
  /-- JMPIGT ra, rb, p, tag 0x18 (R103). -/
  | jmpigt (ra rb : Reg) (p : I32)
  /-- SYSCALL, tag 0x19 (43_system.md R106). -/
  | syscall
  /-- STOP, tag 0x1A (R110). -/
  | stop
deriving DecidableEq, Repr

end Sys2Proof
end

