-- ==== Sys2Proof/WellFormed.lean ====
section
/-! DEFINITION. Which Words hold an instruction: the checks of 30_encoding.md R64, over the used-field table of R61.
An `Instr` is well formed by its type (its register numbers are below NREGS); the checks are about the raw Word. -/

namespace Sys2Proof

/-- The tag is one of the 27 of 30_encoding.md R61: 0x00 to 0x1A. The others, 0x1B to 0xFF, are unrecognized (R68). -/
def recognized (t : Tag) : Bool :=
  decide (t.toNat ≤ 0x1A)

/-- The tags whose `ra` field the table of R61 gives a role, as a register number (R62). -/
def usesRa (t : Tag) : Bool :=
  t ∈ [0x02#8, 0x03#8, 0x04#8, 0x05#8, 0x06#8, 0x07#8, 0x08#8, 0x09#8, 0x0A#8, 0x0B#8, 0x0C#8,
    0x0F#8, 0x10#8, 0x11#8, 0x18#8]

/-- The tags whose `rb` field the table of R61 gives a role, as a register number (R62). -/
def usesRb (t : Tag) : Bool :=
  t ∈ [0x04#8, 0x06#8, 0x07#8, 0x08#8, 0x09#8, 0x0A#8, 0x0F#8, 0x10#8, 0x11#8, 0x12#8, 0x13#8,
    0x14#8, 0x15#8, 0x16#8, 0x17#8, 0x18#8]

/-- The tags whose `p` field the table of R61 gives a role as an operand (R62). The payload of DATA is not one. -/
def usesP (t : Tag) : Bool :=
  t ∈ [0x02#8, 0x03#8, 0x05#8, 0x0B#8, 0x0C#8, 0x0D#8, 0x0E#8, 0x12#8, 0x13#8, 0x14#8, 0x15#8,
    0x16#8, 0x17#8, 0x18#8]

/-- A register field names a register: 0 <= f < NREGS, read as a signed Int32 (R64). -/
def regInRange (f : I32) : Bool :=
  decide (0 ≤ f.toInt ∧ f.toInt < (Config.nRegs : Int))

/-- The Word holds an instruction: a recognized tag, and every used register field in range (R64, R68). A DATA word is
well formed here, as the instruction whose whole meaning is the InvalidInstruction of R104 (log entry 7). -/
def Word.wellFormed (w : Word) : Bool :=
  recognized w.op && (!usesRa w.op || regInRange w.ra) && (!usesRb w.op || regInRange w.rb)

end Sys2Proof
end

