-- ==== Sys2Proof/Decode.lean ====
section
/-! DEFINITION. Decoding a Word into an instruction, total and rejecting by name (30_encoding.md R61 to R68); the
encoder; the 104-bit reference layout of R60; and the reading of an opcode-table word. -/

namespace Sys2Proof

/-- Why a Word is no instruction. Both reasons raise InvalidInstruction (R64). -/
inductive DecodeReject where
  /-- The tag is none of the 27 (R64, R68). -/
  | unrecognizedTag (op : Tag)
  /-- The used field `ra` is outside 0..9 (R64, D10). -/
  | raOutOfRange (ra : I32)
  /-- The used field `rb` is outside 0..9 (R64, D10). -/
  | rbOutOfRange (rb : I32)
deriving DecidableEq, Repr

/-- The answer of `decode`. -/
inductive Decoded where
  | instr (i : Instr)
  | rejected (why : DecodeReject)
deriving DecidableEq, Repr

/-- The register a field names, if 0 <= f < NREGS (R64). -/
def regOf (f : I32) : Option Reg :=
  if h : 0 ≤ f.toInt ∧ f.toInt < (Config.nRegs : Int) then some ⟨f.toInt.toNat, (Int.toNat_lt h.1).mpr h.2⟩ else none

/-- The Word's `ra` as a used register field (R62, R64). -/
def withRa (w : Word) (k : Reg → Decoded) : Decoded :=
  match regOf w.ra with
  | some ra => k ra
  | none => .rejected (.raOutOfRange w.ra)

/-- The Word's `rb` as a used register field (R62, R64). -/
def withRb (w : Word) (k : Reg → Decoded) : Decoded :=
  match regOf w.rb with
  | some rb => k rb
  | none => .rejected (.rbOutOfRange w.rb)

/-- The Word's `ra` and `rb`, both used, checked in that order (R64). -/
def withRaRb (w : Word) (k : Reg → Reg → Decoded) : Decoded :=
  withRa w fun ra => withRb w fun rb => k ra rb

/-- `Decode(w)` (30_encoding.md R64), by the tag numbers and field roles of R61. A DATA word decodes to `data`, whose
meaning raises the InvalidInstruction that R64 raises (log entry 7). -/
def decode (w : Word) : Decoded :=
  match w.op with
  | 0x00#8 => .instr .empty
  | 0x01#8 => .instr .data
  | 0x02#8 => withRa w fun ra => .instr (.ldi ra w.p)
  | 0x03#8 => withRa w fun ra => .instr (.ldd ra w.p)
  | 0x04#8 => withRaRb w fun ra rb => .instr (.ldx ra rb)
  | 0x05#8 => withRa w fun ra => .instr (.std ra w.p)
  | 0x06#8 => withRaRb w fun ra rb => .instr (.stx ra rb)
  | 0x07#8 => withRaRb w fun ra rb => .instr (.move ra rb)
  | 0x08#8 => withRaRb w fun ra rb => .instr (.add ra rb)
  | 0x09#8 => withRaRb w fun ra rb => .instr (.sub ra rb)
  | 0x0A#8 => withRaRb w fun ra rb => .instr (.mult ra rb)
  | 0x0B#8 => withRa w fun ra => .instr (.addi ra w.p)
  | 0x0C#8 => withRa w fun ra => .instr (.subi ra w.p)
  | 0x0D#8 => .instr (.jmp w.p)
  | 0x0E#8 => .instr (.jmpim w.p)
  | 0x0F#8 => withRaRb w fun ra rb => .instr (.jmpig ra rb)
  | 0x10#8 => withRaRb w fun ra rb => .instr (.jmpil ra rb)
  | 0x11#8 => withRaRb w fun ra rb => .instr (.jmpie ra rb)
  | 0x12#8 => withRb w fun rb => .instr (.jmpigk rb w.p)
  | 0x13#8 => withRb w fun rb => .instr (.jmpilk rb w.p)
  | 0x14#8 => withRb w fun rb => .instr (.jmpiek rb w.p)
  | 0x15#8 => withRb w fun rb => .instr (.jmpigm rb w.p)
  | 0x16#8 => withRb w fun rb => .instr (.jmpilm rb w.p)
  | 0x17#8 => withRb w fun rb => .instr (.jmpiem rb w.p)
  | 0x18#8 => withRaRb w fun ra rb => .instr (.jmpigt ra rb w.p)
  | 0x19#8 => .instr .syscall
  | 0x1A#8 => .instr .stop
  | t => .rejected (.unrecognizedTag t)

/-- A register number as a Word's field. -/
def regField (r : Reg) : I32 :=
  BitVec.ofNat 32 r.val

/-- The Word of an instruction, as the assembler writes it (30_encoding.md R61, R70): every unused field is UNUSED,
and an EMPTY's payload is 0. R70 gives DATA a payload to write, which is not an operand; the Word of the instruction
`data` is that of `DATA 0`, and `dataWord v` (Machine/Ops.lean) is that of `DATA v`. -/
def encode : Instr → Word
  | .empty => ⟨0x00, Config.unused, Config.unused, 0⟩
  | .data => ⟨0x01, Config.unused, Config.unused, 0⟩
  | .ldi ra p => ⟨0x02, regField ra, Config.unused, p⟩
  | .ldd ra p => ⟨0x03, regField ra, Config.unused, p⟩
  | .ldx ra rb => ⟨0x04, regField ra, regField rb, Config.unused⟩
  | .std ra p => ⟨0x05, regField ra, Config.unused, p⟩
  | .stx ra rb => ⟨0x06, regField ra, regField rb, Config.unused⟩
  | .move ra rb => ⟨0x07, regField ra, regField rb, Config.unused⟩
  | .add ra rb => ⟨0x08, regField ra, regField rb, Config.unused⟩
  | .sub ra rb => ⟨0x09, regField ra, regField rb, Config.unused⟩
  | .mult ra rb => ⟨0x0A, regField ra, regField rb, Config.unused⟩
  | .addi ra p => ⟨0x0B, regField ra, Config.unused, p⟩
  | .subi ra p => ⟨0x0C, regField ra, Config.unused, p⟩
  | .jmp p => ⟨0x0D, Config.unused, Config.unused, p⟩
  | .jmpim p => ⟨0x0E, Config.unused, Config.unused, p⟩
  | .jmpig ra rb => ⟨0x0F, regField ra, regField rb, Config.unused⟩
  | .jmpil ra rb => ⟨0x10, regField ra, regField rb, Config.unused⟩
  | .jmpie ra rb => ⟨0x11, regField ra, regField rb, Config.unused⟩
  | .jmpigk rb p => ⟨0x12, Config.unused, regField rb, p⟩
  | .jmpilk rb p => ⟨0x13, Config.unused, regField rb, p⟩
  | .jmpiek rb p => ⟨0x14, Config.unused, regField rb, p⟩
  | .jmpigm rb p => ⟨0x15, Config.unused, regField rb, p⟩
  | .jmpilm rb p => ⟨0x16, Config.unused, regField rb, p⟩
  | .jmpiem rb p => ⟨0x17, Config.unused, regField rb, p⟩
  | .jmpigt ra rb p => ⟨0x18, regField ra, regField rb, p⟩
  | .syscall => ⟨0x19, Config.unused, Config.unused, Config.unused⟩
  | .stop => ⟨0x1A, Config.unused, Config.unused, Config.unused⟩

/-- A Word as the 104-bit vector of the reference layout (30_encoding.md R60): op [103:96], ra [95:64], rb [63:32],
p [31:0]. -/
def Word.toBits (w : Word) : BitVec 104 :=
  w.op ++ w.ra ++ w.rb ++ w.p

/-- The Word of a 104-bit vector (R60): every vector is one. -/
def Word.ofBits (b : BitVec 104) : Word where
  op := b.extractLsb' 96 8
  ra := b.extractLsb' 64 32
  rb := b.extractLsb' 32 32
  p := b.extractLsb' 0 32

/-- Decoding the reference layout: total on bits (R60). -/
def decodeBits (b : BitVec 104) : Decoded :=
  decode (Word.ofBits b)

/-- The Word whose bits are `w`, NUMBERED AS spec/opcode_table.json numbers them: the table's bits 7..0 are the op
field. It numbers no other field; the model counts on in the order of the Word tuple, op, ra, rb, p (R59): ra is bits
39..8, rb 71..40, p 103..72 (DESIGN CHOICE, log entry 8). Every bit from `nbits` up is 0. -/
def tableWord (nbits w : Nat) : Word where
  op := BitVec.ofNat 8 (w % 2 ^ nbits)
  ra := BitVec.ofNat 32 (w % 2 ^ nbits / 2 ^ 8)
  rb := BitVec.ofNat 32 (w % 2 ^ nbits / 2 ^ 40)
  p := BitVec.ofNat 32 (w % 2 ^ nbits / 2 ^ 72)

/-- The instruction the decoder reads from the opcode-table word `w` of `nbits` bits. -/
def decodeTableWord (nbits w : Nat) : Option Instr :=
  match decode (tableWord nbits w) with
  | .instr i => some i
  | .rejected _ => none

end Sys2Proof
end

