-- ==== Sys2Proof/Machine/State.lean ====
section
/-! DEFINITION. The state of the block as plain data (10_state.md), the reasons a step of the model can stop, and the
state after reset. -/

namespace Sys2Proof.Machine

/-- PendingFault, the single-slot condition register (10_state.md R27). `stop` is a member of the enumeration that no
rule ever writes (C1). -/
inductive PendingFault where
  | none
  | invalidAddress
  | invalidInstruction
  | overflow
  | stop
deriving DecidableEq, Repr

/-- The CPU state (10_state.md R28). -/
inductive CpuStatus where
  | running
  | halted
deriving DecidableEq, Repr

/-- The four normative events of the output trace (10_state.md R33). -/
inductive Event where
  /-- `Out(v)`, from SYSCALL write (43_system.md R108). -/
  | out (v : I32)
  /-- `Interrupt(kind, pcv)`, from the InterruptController (60_exceptions.md R115). -/
  | interrupt (kind : PendingFault) (pcv : I32)
  /-- `InvalidParam`, from SYSCALL with another selector (43_system.md R109). -/
  | invalidParam
  /-- `StopNote`, from STOP (43_system.md R110). -/
  | stopNote
deriving DecidableEq, Repr

/-- How far the boot of 70_reset_and_hazards.md R135 has come. The spec names the order and its guards (R132 to R134),
not a register for it: DEDUCED, log entry 5. -/
inductive BootPhase where
  /-- CONFIG accepted, reset state, no LOAD yet. -/
  | configured
  /-- LOAD succeeded, START not yet. -/
  | loaded
  /-- LOAD failed at this image index: START is refused (R133). -/
  | loadFailed (index : Nat)
  /-- START accepted: cycles run while `status` is Running (R134). -/
  | started
deriving DecidableEq, Repr

/-- Physical memory (10_state.md R29) by physical Word address, in one canonical form: addresses strictly rising, no
listed Word equal to EmptyWord, which every unlisted slot holds (log entry 6). The unit is the whole Word (R47). -/
abbrev Memory := List (Nat × Word)

/-- The page table `pt` (10_state.md R30) as (page, frame) pairs, pages strictly rising. An unlisted page is UNMAPPED
(log entry 6). -/
abbrev PageTable := List (Nat × Nat)

/-- Frame occupancy `occ` (10_state.md R31) as the list of occupied frames, strictly rising (log entry 6). -/
abbrev Occupancy := List Nat

/-- What the AddressSpace of the document owns (00_scope.md R4): the page table and the frame occupancy. The
standalone driver of 20_memory.md R46 acts on this alone. -/
structure AddressSpace where
  pageTable : PageTable
  occupied : Occupancy
deriving DecidableEq, Repr

/-- The whole state of the block (10_state.md section 1 and R36), with the configuration (R32) and the boot phase. -/
structure State where
  /-- The register file `x`, r0 to r9 (R20). -/
  regs : Vector I32 Config.nRegs
  /-- The program counter (R23). -/
  pc : I32
  /-- PendingFault (R27). -/
  pf : PendingFault
  /-- Running or Halted (R28). -/
  status : CpuStatus
  /-- Physical memory (R29). -/
  mem : Memory
  /-- Page table and occupancy (R30, R31). -/
  space : AddressSpace
  /-- The output trace, oldest event first (R33). -/
  trace : List Event
  /-- The configuration, which no step changes (R32). -/
  config : Configuration
  /-- The boot phase (R135). -/
  boot : BootPhase
deriving DecidableEq, Repr

/-- The model's own faults. There are none: every fault kind of the block (60_exceptions.md R112) is TAKEN, as a next
state with `pf` written and the machine Halted (R114), and no meaning, fetch or access stops the model. Nobody raises a
fault, so this is neither safe nor unsafe. -/
inductive Fault where
deriving DecidableEq, Repr

/-- The model's refusals. Only the host's ports raise them, apart from `notModelled`. -/
inductive Refusal where
  /-- An instruction with no meaning yet. No arm of `exec` raises it. Safe. -/
  | notModelled (mnemonic : String)
  /-- The CONFIG port, on sizes that 70_reset_and_hazards.md R131 does not accept: the block is not constructed. The
  spec's own refusal (D13). Safe. -/
  | invalidConfiguration
  /-- The LOAD port, when the reset has already seen a LOAD or a START (R134, D22, U18). The spec's own. Safe. -/
  | loadNotAccepted
  /-- The START port, without a successful LOAD or a second time (R133, R134, D22, U19). The spec's own. Safe. -/
  | startNotAccepted
  /-- The DUMP port, while the CPU runs (R136). The spec's own. Safe. -/
  | dumpNotAccepted
deriving DecidableEq, Repr

/-- The state right after construction with an accepted configuration (70_reset_and_hazards.md R130, 10_state.md R36):
nothing mapped, nothing occupied, only empty words, no fault, Running, no event. REG_INIT is the argument `regInit`.
The pc is unspecified until START; no step reads it before (log entry 2). -/
def State.construct (c : Configuration) (regInit : Vector I32 Config.nRegs) : State where
  regs := regInit
  pc := Config.startPc
  pf := .none
  status := .running
  mem := []
  space := ⟨[], []⟩
  trace := []
  config := c
  boot := .configured

/-- The machine right after reset, for the configuration and REG_INIT that log entries 1, 3 and 4 name. -/
def State.reset : State :=
  State.construct Config.resetConfiguration Config.regInit

end Sys2Proof.Machine
end

