-- ==== Sys2Proof/Machine/Ops.lean ====
section
/-! DEFINITION. The named operations over the state: sparse tables, physical memory (20_memory.md R38), the frame
allocator (R41), the translator (R39), registers, the pc, the trace, and the one way a fault is taken.

TAKING A FAULT is two separate steps, as R138 asks: `raise` or `signalOverflow` writes `pf` in the cycle (00_scope.md
R13, R14), and `endOfCycle` then logs it and halts (60_exceptions.md R114, R115). Nothing is saved and nothing is
vectored (R121). There is NO return beside it: every fault is terminal (R122). -/

namespace Sys2Proof

/-! ### Configuration (70_reset_and_hazards.md R131) -/

/-- `pageCount = virtualSize / pageSize` (R131). -/
def Configuration.pageCount (c : Configuration) : Nat :=
  c.virtualSize / c.pageSize

/-- `frameCount = physicalSize / pageSize` (R131). -/
def Configuration.frameCount (c : Configuration) : Nat :=
  c.physicalSize / c.pageSize

/-- The configuration is accepted (R131): sizes positive, page size dividing both, none above 2^31 - 1. -/
def Configuration.accepted (c : Configuration) : Bool :=
  decide (0 < c.virtualSize ∧ 0 < c.physicalSize ∧ 0 < c.pageSize ∧
    c.virtualSize % c.pageSize = 0 ∧ c.physicalSize % c.pageSize = 0 ∧
    c.virtualSize ≤ Config.maxSize ∧ c.physicalSize ≤ Config.maxSize ∧ c.pageSize ≤ Config.maxSize)

end Sys2Proof

namespace Sys2Proof.Machine

/-! ### Sparse tables: lists of (key, value) pairs, keys strictly rising -/

/-- The value listed at a key, if any. -/
def lookup {α : Type} (k : Nat) : List (Nat × α) → Option α
  | [] => none
  | (j, v) :: rest => if k = j then some v else lookup k rest

/-- The table with `v` at key `k`, in place. -/
def assign {α : Type} (k : Nat) (v : α) : List (Nat × α) → List (Nat × α)
  | [] => [(k, v)]
  | (j, u) :: rest =>
    if k < j then (k, v) :: (j, u) :: rest
    else if k = j then (k, v) :: rest
    else (j, u) :: assign k v rest

/-- The table with nothing at key `k`. -/
def remove {α : Type} (k : Nat) : List (Nat × α) → List (Nat × α)
  | [] => []
  | (j, u) :: rest => if k = j then remove k rest else (j, u) :: remove k rest

/-- The keys rise strictly. -/
def keysRise {α : Type} (m : List (Nat × α)) : Bool :=
  decide (m.Pairwise fun a b => a.1 < b.1)

/-! ### Words -/

/-- `DataWord(v)` (10_state.md R19): what STD and STX store. -/
def dataWord (v : I32) : Word :=
  ⟨0x01, Config.unused, Config.unused, v⟩

/-- `EmptyWord` (10_state.md R19) for a payload EMPTY_P: what a slot holds that nothing has written. -/
def emptyWord (emptyP : I32) : Word :=
  ⟨0x00, Config.unused, Config.unused, emptyP⟩

/-! ### Physical memory (20_memory.md R38) -/

/-- The Word at a physical address; an unlisted one holds `empty`. -/
def memGet (empty : Word) (pa : Nat) (m : Memory) : Word :=
  (lookup pa m).getD empty

/-- The memory with `w` at a physical address, in canonical form: writing `empty` unlists the address. -/
def memSet (empty : Word) (pa : Nat) (w : Word) (m : Memory) : Memory :=
  if w = empty then remove pa m else assign pa w m

/-- The canonical form: addresses strictly rising, and no entry equal to what an unlisted address holds. -/
def Memory.wf (empty : Word) (m : Memory) : Bool :=
  keysRise m && m.all fun cell => decide (cell.2 ≠ empty)

/-- The EmptyWord of this machine (10_state.md R19). -/
def State.empty (s : State) : Word :=
  emptyWord s.config.emptyP

/-- `PhysRead(pa)` (20_memory.md R38). -/
def physRead (pa : Nat) (s : State) : Word :=
  memGet s.empty pa s.mem

/-- `PhysWrite(pa, w)` (20_memory.md R38). -/
def physWrite (pa : Nat) (w : Word) (s : State) : State :=
  { s with mem := memSet s.empty pa w s.mem }

/-! ### Page table, occupancy and allocator (20_memory.md R41) -/

/-- The frame a page is bound to, if it is mapped. -/
def frameOf (page : Nat) (pt : PageTable) : Option Nat :=
  lookup page pt

/-- `pt[page]` as the integer the document's array holds: UNMAPPED or a frame index (10_state.md R30). -/
def ptEntry (page : Nat) (pt : PageTable) : Int :=
  match frameOf page pt with
  | some f => f
  | none => Config.unmapped

/-- The occupancy with frame `f` marked occupied. -/
def occupy (f : Nat) : Occupancy → Occupancy
  | [] => [f]
  | g :: rest => if f < g then f :: g :: rest else if f = g then g :: rest else g :: occupy f rest

/-- The scan of R41 over frames `f, f + 1, ..., f + fuel - 1`: the first unoccupied one. -/
def firstFree (occ : Occupancy) (f : Nat) : Nat → Option Nat
  | 0 => none
  | fuel + 1 => if f ∈ occ then firstFree occ (f + 1) fuel else some f

/-- The result of `Allocate` (R41). -/
inductive AllocResult where
  | bound (frame : Nat)
  | exhausted
deriving DecidableEq, Repr

/-- `Allocate(pt, occ, page)` (20_memory.md R41), a pure function: binds the lowest free frame, or changes nothing. -/
def allocate (frameCount : Nat) (pt : PageTable) (occ : Occupancy) (page : Nat) :
    PageTable × Occupancy × AllocResult :=
  match firstFree occ 0 frameCount with
  | some f => (assign page f pt, occupy f occ, .bound f)
  | none => (pt, occ, .exhausted)

/-! ### The translator (20_memory.md R39) -/

/-- The page of a virtual address: floor division (00_scope.md R11, D9), so negative for a negative address. -/
def pageOf (c : Configuration) (va : I32) : Int :=
  va.toInt / (c.pageSize : Int)

/-- The offset of a virtual address in its page: the matching non-negative remainder (00_scope.md R11). -/
def offsetOf (c : Configuration) (va : I32) : Nat :=
  (va.toInt % (c.pageSize : Int)).toNat

/-- `Translate(va)` (20_memory.md R39) on the address space alone: the physical address, or none for a failure, and
the address space after. What a failure means is the caller's: a CPU-side caller raises InvalidAddress (R13), the
standalone driver stops (R46), the loader and DUMP report it (R132, R136). -/
def AddressSpace.translate (c : Configuration) (va : I32) (a : AddressSpace) : Option Nat × AddressSpace :=
  if pageOf c va < 0 ∨ (c.pageCount : Int) ≤ pageOf c va then (none, a)
  else
    match frameOf (pageOf c va).toNat a.pageTable with
    | some f => (some (f * c.pageSize + offsetOf c va), a)
    | none =>
      match allocate c.frameCount a.pageTable a.occupied (pageOf c va).toNat with
      | (pt, occ, .bound f) => (some (f * c.pageSize + offsetOf c va), ⟨pt, occ⟩)
      | (pt, occ, .exhausted) => (none, ⟨pt, occ⟩)

/-- The physical address of a translation of the machine's address space (20_memory.md R39), none on failure. -/
def translated (va : I32) (s : State) : Option Nat :=
  (s.space.translate s.config va).1

/-- The state after a translation: a first reference to a page may have bound a frame (20_memory.md R50). -/
def afterTranslate (va : I32) (s : State) : State :=
  { s with space := (s.space.translate s.config va).2 }

/-- What a virtual address reads as through the page table, with no allocation: none on an unmapped page or outside
the address space. The observation of 70_reset_and_hazards.md R140; no instruction reads memory this way. -/
def peek (va : I32) (s : State) : Option Word :=
  if pageOf s.config va < 0 ∨ (s.config.pageCount : Int) ≤ pageOf s.config va then none
  else
    (frameOf (pageOf s.config va).toNat s.space.pageTable).map fun f =>
      physRead (f * s.config.pageSize + offsetOf s.config va) s

/-! ### Registers, pc, trace -/

/-- `x[r]` (10_state.md R20). -/
def readReg (r : Reg) (s : State) : I32 :=
  s.regs[r]

/-- `x[r] <- v` (10_state.md R20). -/
def writeReg (r : Reg) (v : I32) (s : State) : State :=
  { s with regs := s.regs.set r v }

/-- `pc <- target` (10_state.md R23). -/
def setPc (target : I32) (s : State) : State :=
  { s with pc := target }

/-- `pc <- pc + 1` (10_state.md R23). -/
def advancePc (s : State) : State :=
  setPc (s.pc + 1) s

/-- `Emit(e)` (10_state.md R33). -/
def emit (e : Event) (s : State) : State :=
  { s with trace := s.trace ++ [e] }

/-! ### Faults and the end of a cycle -/

/-- `pf <- f`, the write that records a fault (10_state.md R27). -/
def setPf (f : PendingFault) (s : State) : State :=
  { s with pf := f }

/-- `status <- st` (10_state.md R28). -/
def setStatus (st : CpuStatus) (s : State) : State :=
  { s with status := st }

/-- `raise F()` (00_scope.md R13): records the fault. That nothing later in the instruction happens is the caller's
form: `raise` stands last on its path. -/
def raise (f : PendingFault) (s : State) : State :=
  setPf f s

/-- `signal Overflow` (00_scope.md R14): records the fault, and the instruction goes on. -/
def signalOverflow (s : State) : State :=
  setPf .overflow s

/-- `InterruptController.handle(fault)` (60_exceptions.md R115): logs the kind and the pc, and changes nothing else. -/
def interruptHandle (f : PendingFault) (s : State) : State :=
  emit (.interrupt f s.pc) s

/-- The end-of-cycle check (60_exceptions.md R114). -/
def endOfCycle (s : State) : State :=
  if s.pf = .none then s else setStatus .halted (interruptHandle s.pf s)

/-- The end-of-cycle check after an execution (30_encoding.md R65 step 4). -/
def finishCycle (o : Host.Outcome State Fault Refusal) : Host.Outcome State Fault Refusal :=
  match o with
  | .next s => .next (endOfCycle s)
  | .fault r => .fault r
  | .refused r => .refused r

/-- A cycle runs: the host has given START (70_reset_and_hazards.md R134), and the status is Running (10_state.md
R28). -/
def cpuRuns (s : State) : Bool :=
  decide (s.boot = .started ∧ s.status = .running)

/-! ### Fetch (30_encoding.md R65 steps 1 and 2) -/

/-- The Word of the fetch: none when the pc does not translate. It is read after the fetch's own translation. -/
def fetched (s : State) : Option Word :=
  (translated s.pc s).map fun pa => physRead pa (afterTranslate s.pc s)

/-- The state in which the fetched instruction runs: the pc's page is bound. -/
def afterFetch (s : State) : State :=
  afterTranslate s.pc s

/-- The state with `w` stored where the next cycle fetches, and the CPU set running, as LOAD and START would leave it
(70_reset_and_hazards.md R132, R134). When the pc does not translate there is no slot to store to. -/
def placeFetchWord (w : Word) (s : State) : State :=
  let t := { afterFetch s with status := .running, boot := .started }
  match translated s.pc s with
  | some pa => physWrite pa w t
  | none => t

end Sys2Proof.Machine
end

