-- ==== Sys2Proof/Machine/Operands.lean ====
section
/-! DEFINITION. The operand forms: addressing modes (40_data_transfer.md R72), jump targets and conditions
(42_control.md R89 to R91), and the accesses that go through the translator (20_memory.md R49, R50). -/

namespace Sys2Proof.Machine

/-! ### Conditions: signed and strict (42_control.md R90) -/

/-- The G forms: `v > 0`. -/
def isPositive (v : I32) : Bool :=
  decide (0 < v.toInt)

/-- The L forms: `v < 0`. -/
def isNegative (v : I32) : Bool :=
  decide (v.toInt < 0)

/-- The E forms: `v == 0`. -/
def isZero (v : I32) : Bool :=
  decide (v.toInt = 0)

/-- JMPIGT's comparison: `a > b`, signed (R90). -/
def isGreater (a b : I32) : Bool :=
  decide (b.toInt < a.toInt)

/-! ### Translated accesses -/

/-- `pa <- Translate(va)` in an instruction, then the rest of its rule. A failure raises InvalidAddress and ends the
instruction (00_scope.md R13): no register, memory or pc write (40_data_transfer.md R73, 42_control.md R91). -/
def withTranslated (va : I32) (s : State) (rest : Nat → State → State) : State :=
  match translated va s with
  | some pa => rest pa (afterTranslate va s)
  | none => raise .invalidAddress (afterTranslate va s)

/-- `w <- MemRead(va, 1)` and then the rest of the rule, which uses `w.p` (20_memory.md R49, D11). -/
def withPayload (va : I32) (s : State) (rest : I32 → State → State) : State :=
  withTranslated va s fun pa t => rest (physRead pa t).p t

/-- A load into `ra` from an effective address (40_data_transfer.md R72, R75, R76). -/
def loadFrom (ra : Reg) (va : I32) (s : State) : State :=
  withPayload va s fun v t => advancePc (writeReg ra v t)

/-- A store of `DataWord(v)` at an effective address (40_data_transfer.md R72, R77, R78). -/
def storeTo (va v : I32) (s : State) : State :=
  withTranslated va s fun pa t => advancePc (physWrite pa (dataWord v) t)

/-! ### Jumps -/

/-- `if cond: pc <- target else: pc <- pc + 1` (42_control.md R89). -/
def jumpIf (cond : Bool) (target : I32) (s : State) : State :=
  if cond then setPc target s else advancePc s

/-- A jump through memory: `pc <- mem[translate(va)]` (42_control.md R89, R93). -/
def jumpThrough (va : I32) (s : State) : State :=
  withPayload va s fun v t => setPc v t

/-- A conditional jump through memory: no translation unless the condition holds (42_control.md R91, D8). -/
def jumpThroughIf (cond : Bool) (va : I32) (s : State) : State :=
  if cond then jumpThrough va s else advancePc s

end Sys2Proof.Machine
end

