-- ==== Sys2Proof/Machine/Flags.lean ====
section
/-! DEFINITION. The arithmetic laws and the overflow check (41_arithmetic.md R80 to R82). The block has no flags
(10_state.md R25): an overflow goes to PendingFault. -/

namespace Sys2Proof.Machine

/-- `wrap32(n)` (00_scope.md R11): the Int32 congruent to `n` modulo 2^32. -/
def wrap32 (n : Int) : I32 :=
  BitVec.ofInt 32 n

/-- `inRange(v)` (00_scope.md R15): OVF_MIN <= v <= OVF_MAX, so -32768 is out of range. -/
def inRange (v : I32) : Bool :=
  decide (Config.ovfMin ≤ v.toInt ∧ v.toInt ≤ Config.ovfMax)

/-- The check after an arithmetic result (41_arithmetic.md R81): it tests the written, wrapped value. -/
def overflowCheck (r : I32) (s : State) : State :=
  if inRange r then s else signalOverflow s

/-- The common form of the five arithmetic rules (41_arithmetic.md R83 to R87): the exact result is wrapped, written,
checked, and the pc advances whatever the check says (R81). -/
def writeResult (ra : Reg) (exact : Int) (s : State) : State :=
  advancePc (overflowCheck (wrap32 exact) (writeReg ra (wrap32 exact) s))

end Sys2Proof.Machine
end

