-- ==== Sys2Proof/Machine/Arithmetic.lean ====
section
/-! DEFINITION. Arithmetic: ADD, SUB, MULT, ADDI, SUBI (41_arithmetic.md), each on the exact integers. -/

namespace Sys2Proof.Machine

/-- ADD ra, rb (R83). -/
def execAdd (ra rb : Reg) (s : State) : Host.Outcome State Fault Refusal :=
  .next (writeResult ra ((readReg ra s).toInt + (readReg rb s).toInt) s)

/-- SUB ra, rb (R84). -/
def execSub (ra rb : Reg) (s : State) : Host.Outcome State Fault Refusal :=
  .next (writeResult ra ((readReg ra s).toInt - (readReg rb s).toInt) s)

/-- MULT ra, rb (R85). -/
def execMult (ra rb : Reg) (s : State) : Host.Outcome State Fault Refusal :=
  .next (writeResult ra ((readReg ra s).toInt * (readReg rb s).toInt) s)

/-- ADDI ra, p (R86). -/
def execAddi (ra : Reg) (p : I32) (s : State) : Host.Outcome State Fault Refusal :=
  .next (writeResult ra ((readReg ra s).toInt + p.toInt) s)

/-- SUBI ra, p (R87). -/
def execSubi (ra : Reg) (p : I32) (s : State) : Host.Outcome State Fault Refusal :=
  .next (writeResult ra ((readReg ra s).toInt - p.toInt) s)

end Sys2Proof.Machine
end

