-- ==== Sys2Proof/Machine/Control.lean ====
section
/-! DEFINITION. Control transfer: the twelve jumps (42_control.md). No target is checked when it is written (R89). -/

namespace Sys2Proof.Machine

/-- JMP p (R92). -/
def execJmp (p : I32) (s : State) : Host.Outcome State Fault Refusal :=
  .next (setPc p s)

/-- JMPIM p (R93): always translates. -/
def execJmpim (p : I32) (s : State) : Host.Outcome State Fault Refusal :=
  .next (jumpThrough p s)

/-- JMPIG ra, rb (R94). -/
def execJmpig (ra rb : Reg) (s : State) : Host.Outcome State Fault Refusal :=
  .next (jumpIf (isPositive (readReg rb s)) (readReg ra s) s)

/-- JMPIL ra, rb (R95). -/
def execJmpil (ra rb : Reg) (s : State) : Host.Outcome State Fault Refusal :=
  .next (jumpIf (isNegative (readReg rb s)) (readReg ra s) s)

/-- JMPIE ra, rb (R96). -/
def execJmpie (ra rb : Reg) (s : State) : Host.Outcome State Fault Refusal :=
  .next (jumpIf (isZero (readReg rb s)) (readReg ra s) s)

/-- JMPIGK rb, p (R97). -/
def execJmpigk (rb : Reg) (p : I32) (s : State) : Host.Outcome State Fault Refusal :=
  .next (jumpIf (isPositive (readReg rb s)) p s)

/-- JMPILK rb, p (R98). -/
def execJmpilk (rb : Reg) (p : I32) (s : State) : Host.Outcome State Fault Refusal :=
  .next (jumpIf (isNegative (readReg rb s)) p s)

/-- JMPIEK rb, p (R99). -/
def execJmpiek (rb : Reg) (p : I32) (s : State) : Host.Outcome State Fault Refusal :=
  .next (jumpIf (isZero (readReg rb s)) p s)

/-- JMPIGM rb, p (R100). -/
def execJmpigm (rb : Reg) (p : I32) (s : State) : Host.Outcome State Fault Refusal :=
  .next (jumpThroughIf (isPositive (readReg rb s)) p s)

/-- JMPILM rb, p (R101). -/
def execJmpilm (rb : Reg) (p : I32) (s : State) : Host.Outcome State Fault Refusal :=
  .next (jumpThroughIf (isNegative (readReg rb s)) p s)

/-- JMPIEM rb, p (R102). -/
def execJmpiem (rb : Reg) (p : I32) (s : State) : Host.Outcome State Fault Refusal :=
  .next (jumpThroughIf (isZero (readReg rb s)) p s)

/-- JMPIGT ra, rb, p (R103). -/
def execJmpigt (ra rb : Reg) (p : I32) (s : State) : Host.Outcome State Fault Refusal :=
  .next (jumpIf (isGreater (readReg ra s) (readReg rb s)) p s)

end Sys2Proof.Machine
end

