-- ==== Sys2Proof/Machine/DataTransfer.lean ====
section
/-! DEFINITION. Data transfer: LDI, LDD, LDX, STD, STX, MOVE (40_data_transfer.md). -/

namespace Sys2Proof.Machine

/-- LDI ra, p (R74). -/
def execLdi (ra : Reg) (p : I32) (s : State) : Host.Outcome State Fault Refusal :=
  .next (advancePc (writeReg ra p s))

/-- LDD ra, p (R75): direct, the effective address is `p`. -/
def execLdd (ra : Reg) (p : I32) (s : State) : Host.Outcome State Fault Refusal :=
  .next (loadFrom ra p s)

/-- LDX ra, rb (R76): register-indirect, the effective address is `x[rb]`, read before `ra` is written. -/
def execLdx (ra rb : Reg) (s : State) : Host.Outcome State Fault Refusal :=
  .next (loadFrom ra (readReg rb s) s)

/-- STD ra, p (R77): stores `x[ra]` at `p`. -/
def execStd (ra : Reg) (p : I32) (s : State) : Host.Outcome State Fault Refusal :=
  .next (storeTo p (readReg ra s) s)

/-- STX ra, rb (R78): stores `x[rb]` at `x[ra]`, the roles reversed from LDX. -/
def execStx (ra rb : Reg) (s : State) : Host.Outcome State Fault Refusal :=
  .next (storeTo (readReg ra s) (readReg rb s) s)

/-- MOVE ra, rb (R79). -/
def execMove (ra rb : Reg) (s : State) : Host.Outcome State Fault Refusal :=
  .next (advancePc (writeReg ra (readReg rb s) s))

end Sys2Proof.Machine
end

