-- ==== Sys2Proof/Machine/System.lean ====
section
/-! DEFINITION. DATA, EMPTY, SYSCALL with the SyscallHandler, and STOP (43_system.md). -/

namespace Sys2Proof.Machine

/-- EMPTY (R105): the no-op. -/
def execEmpty (s : State) : Host.Outcome State Fault Refusal :=
  .next (advancePc s)

/-- DATA (R104): raises InvalidInstruction, always; the pc keeps its value. -/
def execData (s : State) : Host.Outcome State Fault Refusal :=
  .next (raise .invalidInstruction s)

/-- `SysWrite(arg)` (R108): a failed translation writes `pf` and does NOT end SYSCALL; a successful one emits the `p`
field of the Word at `arg`, whatever its tag (D11). -/
def sysWrite (arg : I32) (s : State) : State :=
  match translated arg s with
  | some pa => emit (.out (physRead pa (afterTranslate arg s)).p) (afterTranslate arg s)
  | none => setPf .invalidAddress (afterTranslate arg s)

/-- `SyscallHandler.handle()` (R106): dispatch on the selector in r8, with the argument in r9. Selector 1 is read and
does nothing (R107); any selector but 1 and 2 logs InvalidParam (R109). -/
def syscallHandle (s : State) : State :=
  if readReg Config.selReg s = Config.selRead then s
  else if readReg Config.selReg s = Config.selWrite then sysWrite (readReg Config.argReg s) s
  else emit .invalidParam s

/-- SYSCALL (R106): the pc advances whatever the handler did (D7). -/
def execSyscall (s : State) : Host.Outcome State Fault Refusal :=
  .next (advancePc (syscallHandle s))

/-- STOP (R110): logs the stop and halts directly; `pf` stays as it is, and the pc does not move (D20). -/
def execStop (s : State) : Host.Outcome State Fault Refusal :=
  .next (setStatus .halted (emit .stopNote s))

end Sys2Proof.Machine
end

