-- ==== Sys2Proof/Machine/Dispatch.lean ====
section
/-! DEFINITION. `Execute(ins)` (30_encoding.md R65, R67): one arm per instruction. -/

namespace Sys2Proof.Machine

/-- The effect of an instruction, by its tag alone (30_encoding.md R67). -/
def exec (i : Instr) (s : State) : Host.Outcome State Fault Refusal :=
  match i with
  | .empty => Sys2Proof.Machine.execEmpty s
  | .data => Sys2Proof.Machine.execData s
  | .ldi ra p => Sys2Proof.Machine.execLdi ra p s
  | .ldd ra p => Sys2Proof.Machine.execLdd ra p s
  | .ldx ra rb => Sys2Proof.Machine.execLdx ra rb s
  | .std ra p => Sys2Proof.Machine.execStd ra p s
  | .stx ra rb => Sys2Proof.Machine.execStx ra rb s
  | .move ra rb => Sys2Proof.Machine.execMove ra rb s
  | .add ra rb => Sys2Proof.Machine.execAdd ra rb s
  | .sub ra rb => Sys2Proof.Machine.execSub ra rb s
  | .mult ra rb => Sys2Proof.Machine.execMult ra rb s
  | .addi ra p => Sys2Proof.Machine.execAddi ra p s
  | .subi ra p => Sys2Proof.Machine.execSubi ra p s
  | .jmp p => Sys2Proof.Machine.execJmp p s
  | .jmpim p => Sys2Proof.Machine.execJmpim p s
  | .jmpig ra rb => Sys2Proof.Machine.execJmpig ra rb s
  | .jmpil ra rb => Sys2Proof.Machine.execJmpil ra rb s
  | .jmpie ra rb => Sys2Proof.Machine.execJmpie ra rb s
  | .jmpigk rb p => Sys2Proof.Machine.execJmpigk rb p s
  | .jmpilk rb p => Sys2Proof.Machine.execJmpilk rb p s
  | .jmpiek rb p => Sys2Proof.Machine.execJmpiek rb p s
  | .jmpigm rb p => Sys2Proof.Machine.execJmpigm rb p s
  | .jmpilm rb p => Sys2Proof.Machine.execJmpilm rb p s
  | .jmpiem rb p => Sys2Proof.Machine.execJmpiem rb p s
  | .jmpigt ra rb p => Sys2Proof.Machine.execJmpigt ra rb p s
  | .syscall => Sys2Proof.Machine.execSyscall s
  | .stop => Sys2Proof.Machine.execStop s

end Sys2Proof.Machine
end

