-- ==== Sys2Proof/Machine/Cycle.lean ====
section
/-! DEFINITION. One cycle of the CPU loop (30_encoding.md R65). -/

namespace Sys2Proof.Machine

/-- `Cycle()` (30_encoding.md R65): validate the pc and fetch, decode and execute, then the end-of-cycle check, which
runs exactly once (60_exceptions.md R114). A fetch fault skips decode and execute, a decode fault skips execute. -/
def cycle (s : State) : Host.Outcome State Fault Refusal :=
  match fetched s with
  | none => .next (endOfCycle (raise .invalidAddress (afterFetch s)))
  | some w =>
    match decode w with
    | .rejected _ => .next (endOfCycle (raise .invalidInstruction (afterFetch s)))
    | .instr i => finishCycle (exec i (afterFetch s))

end Sys2Proof.Machine
end

