-- ==== Sys2Proof/Machine/Step.lean ====
section
/-! DEFINITION. The step of the machine, and placing an instruction where it fetches. -/

namespace Sys2Proof.Machine

/-- One step: a cycle when the CPU runs (30_encoding.md R65). Before START no cycle runs (70_reset_and_hazards.md
R134), and Halted is terminal (10_state.md R28, 60_exceptions.md R117): the state stays as it is. -/
def step (s : State) : Host.Outcome State Fault Refusal :=
  if cpuRuns s then cycle s else .next s

/-- The state with the opcode-table word `w` (of `nbits` bits, numbered as the table numbers them) stored at the pc,
its page bound as LOAD would bind it, and the CPU started (log entry 9). -/
def State.withFetchWord (s : State) (nbits w : Nat) : State :=
  placeFetchWord (tableWord nbits w) s

end Sys2Proof.Machine
end

