-- ==== Sys2Proof/Machine/Assembler.lean ====
section
/-! DEFINITION. The assembler of 30_encoding.md R70, from the tokens of each line to the image that LOAD takes (log
entry 22). It is no part of a cycle. R71 gives no pseudo-instruction, so there is none. -/

namespace Sys2Proof.Machine

/-- An operand as written (30_encoding.md R70): a register `r0` to `r9`, a decimal integer, or a label. -/
inductive AsmOperand where
  | reg (n : Nat)
  | number (v : Int)
  | label (name : String)
deriving DecidableEq, Repr

/-- One line (30_encoding.md R70): the labels that begin it, its mnemonic and its operands. DESIGN CHOICE (log entry
22): a line has any number of labels, where R70 says only that it may begin with one. -/
structure AsmLine where
  labels : List String
  mnemonic : String
  operands : List AsmOperand
deriving DecidableEq, Repr

/-- The tag a mnemonic names (30_encoding.md R61). -/
def tagOf (mnemonic : String) : Option Tag :=
  match mnemonic with
  | "EMPTY" => some 0x00
  | "DATA" => some 0x01
  | "LDI" => some 0x02
  | "LDD" => some 0x03
  | "LDX" => some 0x04
  | "STD" => some 0x05
  | "STX" => some 0x06
  | "MOVE" => some 0x07
  | "ADD" => some 0x08
  | "SUB" => some 0x09
  | "MULT" => some 0x0A
  | "ADDI" => some 0x0B
  | "SUBI" => some 0x0C
  | "JMP" => some 0x0D
  | "JMPIM" => some 0x0E
  | "JMPIG" => some 0x0F
  | "JMPIL" => some 0x10
  | "JMPIE" => some 0x11
  | "JMPIGK" => some 0x12
  | "JMPILK" => some 0x13
  | "JMPIEK" => some 0x14
  | "JMPIGM" => some 0x15
  | "JMPILM" => some 0x16
  | "JMPIEM" => some 0x17
  | "JMPIGT" => some 0x18
  | "SYSCALL" => some 0x19
  | "STOP" => some 0x1A
  | _ => none

/-- The Word address of a label among lines that stand from address `a` on: that of the first line it begins (log entry
22). -/
def labelAddress (name : String) (a : Nat) : List AsmLine → Option Nat
  | [] => none
  | line :: rest => if name ∈ line.labels then some a else labelAddress name (a + 1) rest

/-- A register operand as a field. -/
def asmReg : AsmOperand → Option I32
  | .reg n => if n < Config.nRegs then some (BitVec.ofNat 32 n) else none
  | .number _ => none
  | .label _ => none

/-- An immediate, an address, a target or a data value: a decimal integer of Int32, or a label's address. -/
def asmValue (program : List AsmLine) : AsmOperand → Option I32
  | .reg _ => none
  | .number v => if -(2 ^ 31) ≤ v ∧ v < 2 ^ 31 then some (BitVec.ofInt 32 v) else none
  | .label name => (labelAddress name Config.loadBase program).map (BitVec.ofNat 32)

/-- One field of a Word from the operands left: the next operand when the field is used, else `unwritten`. -/
def asmField (used : Bool) (unwritten : I32) (read : AsmOperand → Option I32) (operands : List AsmOperand) :
    Option (I32 × List AsmOperand) :=
  if used then
    match operands with
    | [] => none
    | o :: rest => (read o).map fun f => (f, rest)
  else some (unwritten, operands)

/-- The Word of a line (30_encoding.md R70): the operands are ra, rb, p, only the used ones, and DATA's value; an
unused field is UNUSED, and the payload of an EMPTY is 0. DESIGN CHOICE (log entry 22): the value of DATA may be a
label, where R70 allows labels for immediates, addresses and targets and is silent on DATA's value. -/
def asmWord (program : List AsmLine) (line : AsmLine) : Option Word := do
  let tag ← tagOf line.mnemonic
  let (ra, afterRa) ← asmField (usesRa tag) Config.unused asmReg line.operands
  let (rb, afterRb) ← asmField (usesRb tag) Config.unused asmReg afterRa
  let (p, afterP) ← asmField (usesP tag || tag == 0x01) (if tag = 0x00 then 0 else Config.unused)
    (asmValue program) afterRb
  if afterP = [] then some ⟨tag, ra, rb, p⟩ else none

/-- The line that an instruction is written as (30_encoding.md R70, the table of forms), with no label. `data` is
written as DATA 0 (log entry 7). -/
def lineOf : Instr → AsmLine
  | .empty => ⟨[], "EMPTY", []⟩
  | .data => ⟨[], "DATA", [.number 0]⟩
  | .ldi ra p => ⟨[], "LDI", [.reg ra, .number p.toInt]⟩
  | .ldd ra p => ⟨[], "LDD", [.reg ra, .number p.toInt]⟩
  | .ldx ra rb => ⟨[], "LDX", [.reg ra, .reg rb]⟩
  | .std ra p => ⟨[], "STD", [.reg ra, .number p.toInt]⟩
  | .stx ra rb => ⟨[], "STX", [.reg ra, .reg rb]⟩
  | .move ra rb => ⟨[], "MOVE", [.reg ra, .reg rb]⟩
  | .add ra rb => ⟨[], "ADD", [.reg ra, .reg rb]⟩
  | .sub ra rb => ⟨[], "SUB", [.reg ra, .reg rb]⟩
  | .mult ra rb => ⟨[], "MULT", [.reg ra, .reg rb]⟩
  | .addi ra p => ⟨[], "ADDI", [.reg ra, .number p.toInt]⟩
  | .subi ra p => ⟨[], "SUBI", [.reg ra, .number p.toInt]⟩
  | .jmp p => ⟨[], "JMP", [.number p.toInt]⟩
  | .jmpim p => ⟨[], "JMPIM", [.number p.toInt]⟩
  | .jmpig ra rb => ⟨[], "JMPIG", [.reg ra, .reg rb]⟩
  | .jmpil ra rb => ⟨[], "JMPIL", [.reg ra, .reg rb]⟩
  | .jmpie ra rb => ⟨[], "JMPIE", [.reg ra, .reg rb]⟩
  | .jmpigk rb p => ⟨[], "JMPIGK", [.reg rb, .number p.toInt]⟩
  | .jmpilk rb p => ⟨[], "JMPILK", [.reg rb, .number p.toInt]⟩
  | .jmpiek rb p => ⟨[], "JMPIEK", [.reg rb, .number p.toInt]⟩
  | .jmpigm rb p => ⟨[], "JMPIGM", [.reg rb, .number p.toInt]⟩
  | .jmpilm rb p => ⟨[], "JMPILM", [.reg rb, .number p.toInt]⟩
  | .jmpiem rb p => ⟨[], "JMPIEM", [.reg rb, .number p.toInt]⟩
  | .jmpigt ra rb p => ⟨[], "JMPIGT", [.reg ra, .reg rb, .number p.toInt]⟩
  | .syscall => ⟨[], "SYSCALL", []⟩
  | .stop => ⟨[], "STOP", []⟩

/-- The image of a program, one Word a line; none when a line is no instruction of R70. -/
def assemble (program : List AsmLine) : Option (List Word) :=
  program.mapM (asmWord program)

end Sys2Proof.Machine
end

