-- ==== Sys2Proof/Machine/Ports.lean ====
section
/-! DEFINITION. The host's ports as transactions on the state (00_scope.md R7, D18): CONFIG, LOAD, START, TRANSLATE,
DUMP, OUT, LOG and STATUS. The host acts only while the CPU loop is not running (R8). -/

namespace Sys2Proof.Machine

/-! ### CONFIG (70_reset_and_hazards.md R130, R131) -/

/-- The CONFIG port: construction of the block from three integers, with the OPEN parameters REG_INIT and EMPTY_P
(R9). A size that is not positive, too large, or not a multiple of the page size refuses construction (D13). -/
def portConfig (virtualSize physicalSize pageSize : Int) (regInit : Vector I32 Config.nRegs) (emptyP : I32) :
    Host.Outcome State Fault Refusal :=
  if 0 < virtualSize ∧ 0 < physicalSize ∧ 0 < pageSize ∧
      Configuration.accepted ⟨virtualSize.toNat, physicalSize.toNat, pageSize.toNat, emptyP⟩ = true then
    .next (State.construct ⟨virtualSize.toNat, physicalSize.toNat, pageSize.toNat, emptyP⟩ regInit)
  else .refused .invalidConfiguration

/-! ### LOAD (70_reset_and_hazards.md R132, R133) -/

/-- The loop of `Load(image)` from index `i` (R132). A failure leaves the Words before it written, writes neither `pf`
nor `status`, and is remembered, since START must then be refused (R133). -/
def loadWords (i : Nat) : List Word → State → State
  | [], s => { s with boot := .loaded }
  | w :: rest, s =>
    match translated (BitVec.ofNat 32 (Config.loadBase + i)) s with
    | some pa => loadWords (i + 1) rest (physWrite pa w (afterTranslate (BitVec.ofNat 32 (Config.loadBase + i)) s))
    | none => { afterTranslate (BitVec.ofNat 32 (Config.loadBase + i)) s with boot := .loadFailed i }

/-- The LOAD port: one LOAD per reset, before START (R134, D22). `LoadError(i)` is the boot phase `loadFailed i`. -/
def portLoad (image : List Word) (s : State) : Host.Outcome State Fault Refusal :=
  if s.boot = .configured then .next (loadWords 0 image s) else .refused .loadNotAccepted

/-! ### START (70_reset_and_hazards.md R134) -/

/-- The START port: once per reset, only after a successful LOAD (D22); `step` then runs cycles. -/
def portStart (startPc : I32) (s : State) : Host.Outcome State Fault Refusal :=
  if s.boot = .loaded then .next { setPc startPc s with boot := .started } else .refused .startNotAccepted

/-! ### DUMP (70_reset_and_hazards.md R136) -/

/-- The loop of `Dump` over `n` addresses from `va`: the Word at each, or none for Fail, and the state after, in which
a first reference has bound its page as `Translate` does (C2, D17). -/
def dumpWords (va : I32) : Nat → State → State × List (Option Word)
  | 0, s => (s, [])
  | n + 1, s =>
    let one := (translated va s).map fun pa => physRead pa (afterTranslate va s)
    let more := dumpWords (va + 1) n (afterTranslate va s)
    (more.1, one :: more.2)

/-- The DUMP port over [lo, hi) (R136): only before START or after Halted. -/
def portDump (lo hi : I32) (s : State) : Host.Outcome (State × List (Option Word)) Fault Refusal :=
  if cpuRuns s then .refused .dumpNotAccepted
  else .next (dumpWords lo (hi.toInt - lo.toInt).toNat s)

/-! ### TRANSLATE, the standalone driver (20_memory.md R46) -/

/-- What the standalone driver has done: the physical addresses answered, in order, the address at which it stopped
(none when every address was answered), and the address space after. -/
structure DriverRun where
  answered : List Nat
  stoppedAt : Option I32
  space : AddressSpace
deriving DecidableEq, Repr

/-- The standalone driver (R46): it calls the translator on each address in turn, with no CPU, and issues no further
address after its first failure, of either cause (D21). It has no `pf`, `status` or trace to write: the asymmetry
between the two callers that R46 asks to keep. -/
def driverRun (c : Configuration) : List I32 → AddressSpace → DriverRun
  | [], a => ⟨[], none, a⟩
  | va :: rest, a =>
    match a.translate c va with
    | (some pa, b) =>
      let more := driverRun c rest b
      ⟨pa :: more.answered, more.stoppedAt, more.space⟩
    | (none, b) => ⟨[], some va, b⟩

/-! ### OUT, LOG and STATUS (10_state.md R33, 60_exceptions.md R118, R119) -/

/-- The OUT port: the values SYSCALL write has emitted, in order (43_system.md R108). -/
def portOut (s : State) : List I32 :=
  s.trace.filterMap fun
    | .out v => some v
    | .interrupt _ _ => none
    | .invalidParam => none
    | .stopNote => none

/-- The LOG port: the events other than `Out`, in order (60_exceptions.md R119). -/
def portLog (s : State) : List Event :=
  s.trace.filter fun
    | .out _ => false
    | .interrupt _ _ => true
    | .invalidParam => true
    | .stopNote => true

/-- The STATUS port: `status` and `pf` (60_exceptions.md R118). -/
def portStatus (s : State) : CpuStatus × PendingFault :=
  (s.status, s.pf)

/-! ### The end of a run (70_reset_and_hazards.md R140) -/

/-- The final observation of a run (R140). -/
structure Observation where
  /-- STATUS: (Halted, none) after STOP, (Halted, k) after fault k. -/
  status : CpuStatus × PendingFault
  regs : Vector I32 Config.nRegs
  pc : I32
  /-- The Word at each virtual address of every mapped page, addresses rising. -/
  memory : List (Nat × Word)
  pageTable : PageTable
  occupied : Occupancy
  /-- The normative output. -/
  outputs : List I32
deriving DecidableEq, Repr

/-- The virtual memory contents, read through the page table, for every mapped page (R140). -/
def mappedWords (s : State) : List (Nat × Word) :=
  s.space.pageTable.flatMap fun entry =>
    (List.range s.config.pageSize).map fun offset =>
      (entry.1 * s.config.pageSize + offset, physRead (entry.2 * s.config.pageSize + offset) s)

/-- The final observation: there is one exactly when the machine is Halted (R140). -/
def observe (s : State) : Option Observation :=
  match s.status with
  | .running => none
  | .halted => some ⟨portStatus s, s.regs, s.pc, mappedWords s, s.space.pageTable, s.space.occupied, portOut s⟩

/-- The numeric code of a PendingFault value (10_state.md R27, D24). -/
def PendingFault.code : PendingFault → Nat
  | .none => 0
  | .invalidAddress => 1
  | .invalidInstruction => 2
  | .overflow => 3
  | .stop => 4

end Sys2Proof.Machine
end

