-- ==== Sys2Proof/Safety.lean ====
section
/-! DEFINITION. What a safe state is, and the terms the statements use: when an address translates, what a step keeps,
and the invariants that every step of this hardware keeps. -/

namespace Sys2Proof.Machine

/-! ### When a translation succeeds -/

/-- The page of `va` is mapped, or some frame is free to map it to (20_memory.md R39 step 3). -/
def PageReachable (va : I32) (s : State) : Prop :=
  (∃ f, frameOf (pageOf s.config va).toNat s.space.pageTable = some f) ∨
    ∃ f, f < s.config.frameCount ∧ f ∉ s.space.occupied

/-- `va` is valid, 0 <= va < virtualSize, and its page can be reached: the accesses that do not raise InvalidAddress
(20_memory.md R40). -/
def Accessible (va : I32) (s : State) : Prop :=
  0 ≤ va.toInt ∧ va.toInt < (s.config.virtualSize : Int) ∧ PageReachable va s

/-- The address space after translating the addresses in order, whatever each answers (20_memory.md R39, R50). -/
def spaceAfter (c : Configuration) (vas : List I32) (a : AddressSpace) : AddressSpace :=
  vas.foldl (fun b va => (b.translate c va).2) a

/-- The `n` addresses from `lo` on (70_reset_and_hazards.md R136). -/
def addressesFrom (lo : I32) (n : Nat) : List I32 :=
  (List.range n).map fun (k : Nat) => BitVec.ofInt 32 (lo.toInt + (k : Int))

/-! ### What a step keeps -/

/-- Every slot of physical memory reads as before. -/
def SameMemory (s t : State) : Prop :=
  ∀ pa, physRead pa t = physRead pa s

/-- Every register reads as before. -/
def SameRegs (s t : State) : Prop :=
  ∀ r, readReg r t = readReg r s

/-- Every register but `ra` reads as before. -/
def SameRegsBut (ra : Reg) (s t : State) : Prop :=
  ∀ r, r ≠ ra → readReg r t = readReg r s

/-- `pf`, `status`, the trace, the configuration and the boot phase are as before. -/
def SameControl (s t : State) : Prop :=
  t.pf = s.pf ∧ t.status = s.status ∧ t.trace = s.trace ∧ t.config = s.config ∧ t.boot = s.boot

/-- Nothing but the pc may differ. -/
def OnlyPcChanges (s t : State) : Prop :=
  SameRegs s t ∧ SameMemory s t ∧ t.space = s.space ∧ SameControl s t

/-- The effect 41_arithmetic.md R80 and R81 give an arithmetic instruction with destination `ra` and exact result `n`:
the result modulo 2^32, as a signed value, is written; outside [-32767, 32767] it sets `pf` to Overflow; the pc
advances; nothing else changes. -/
def ArithmeticEffect (ra : Reg) (n : Int) (s t : State) : Prop :=
  (readReg ra t).toInt = n.bmod (2 ^ 32) ∧ SameRegsBut ra s t ∧ t.pc = s.pc + 1 ∧
    t.pf = (if -32767 ≤ n.bmod (2 ^ 32) ∧ n.bmod (2 ^ 32) ≤ 32767 then s.pf else .overflow) ∧
    t.status = s.status ∧ t.trace = s.trace ∧ t.config = s.config ∧ t.boot = s.boot ∧
    t.space = s.space ∧ SameMemory s t

/-- `i` is an arithmetic instruction with destination `ra` whose exact result in `s` is the integer `n`
(41_arithmetic.md R80, R83 to R87). -/
def ArithmeticOf (i : Instr) (s : State) (ra : Reg) (n : Int) : Prop :=
  (∃ rb, i = .add ra rb ∧ n = (readReg ra s).toInt + (readReg rb s).toInt) ∨
  (∃ rb, i = .sub ra rb ∧ n = (readReg ra s).toInt - (readReg rb s).toInt) ∨
  (∃ rb, i = .mult ra rb ∧ n = (readReg ra s).toInt * (readReg rb s).toInt) ∨
  (∃ p, i = .addi ra p ∧ n = (readReg ra s).toInt + p.toInt) ∨
  (∃ p, i = .subi ra p ∧ n = (readReg ra s).toInt - p.toInt)

/-- The effect of a load into `ra` from `va` (40_data_transfer.md R75, R76): the payload of the Word at `va` is
written, the pc advances, `va`'s page is bound, nothing else changes. -/
def LoadEffect (ra : Reg) (va : I32) (s t : State) : Prop :=
  ∃ pa, translated va s = some pa ∧ readReg ra t = (physRead pa s).p ∧ SameRegsBut ra s t ∧ t.pc = s.pc + 1 ∧
    t.space = (afterTranslate va s).space ∧ SameMemory s t ∧ SameControl s t

/-- The effect of a store of `v` at `va` (40_data_transfer.md R77, R78): the slot `va` translates to holds the data
word of `v`, every other slot reads as before, the pc advances, `va`'s page is bound, nothing else changes. -/
def StoreEffect (va v : I32) (s t : State) : Prop :=
  ∃ pa, translated va s = some pa ∧ physRead pa t = ⟨0x01, -1, -1, v⟩ ∧
    (∀ qa, qa ≠ pa → physRead qa t = physRead qa s) ∧ SameRegs s t ∧ t.pc = s.pc + 1 ∧
    t.space = (afterTranslate va s).space ∧ SameControl s t

/-- The effect of a jump through memory at `va` (42_control.md R93): the pc becomes the payload of the Word at `va`,
`va`'s page is bound, nothing else changes. -/
def JumpThroughEffect (va : I32) (s t : State) : Prop :=
  ∃ pa, translated va s = some pa ∧ t.pc = (physRead pa s).p ∧ SameRegs s t ∧ SameMemory s t ∧
    t.space = (afterTranslate va s).space ∧ SameControl s t

/-- The state of an instruction that `raise`d InvalidAddress (00_scope.md R13): only `pf` has changed. -/
def addressFault (s : State) : State :=
  { s with pf := .invalidAddress }

/-! ### What an instruction may write -/

/-- The register an instruction writes: its `ra`, where the table of 30_encoding.md R61 calls `ra` a destination.
SYSCALL, STOP, EMPTY, DATA, the stores and the jumps write none (10_state.md R21). -/
def destReg : Instr → Option Reg
  | .ldi ra _ | .ldd ra _ | .ldx ra _ | .move ra _ => some ra
  | .add ra _ | .sub ra _ | .mult ra _ | .addi ra _ | .subi ra _ => some ra
  | .std _ _ | .stx _ _ | .empty | .data | .syscall | .stop => none
  | .jmp _ | .jmpim _ | .jmpig _ _ | .jmpil _ _ | .jmpie _ _ => none
  | .jmpigk _ _ | .jmpilk _ _ | .jmpiek _ _ | .jmpigm _ _ | .jmpilm _ _ | .jmpiem _ _ | .jmpigt _ _ _ => none

/-- The instructions that store to memory: STD and STX (20_memory.md R49). -/
def isStore : Instr → Bool
  | .std _ _ | .stx _ _ => true
  | .ldi _ _ | .ldd _ _ | .ldx _ _ | .move _ _ => false
  | .add _ _ | .sub _ _ | .mult _ _ | .addi _ _ | .subi _ _ => false
  | .empty | .data | .syscall | .stop => false
  | .jmp _ | .jmpim _ | .jmpig _ _ | .jmpil _ _ | .jmpie _ _ => false
  | .jmpigk _ _ | .jmpilk _ _ | .jmpiek _ _ | .jmpigm _ _ | .jmpilm _ _ | .jmpiem _ _ | .jmpigt _ _ _ => false

/-- The instruction whose cycle a step runs, if it gets as far as executing one (30_encoding.md R65). -/
def executing (s : State) : Option Instr :=
  if cpuRuns s then
    match fetched s with
    | none => none
    | some w =>
      match decode w with
      | .instr i => some i
      | .rejected _ => none
  else none

/-! ### Invariants -/

/-- The address space is sound (10_state.md R30, R31; 20_memory.md R43, R45): pages rise and are in range; mapped pages
never share a frame; a frame is occupied exactly when a page is bound to it; and the occupied frames are a prefix of
the frame indices, as many as there are mapped pages, all of them frames that exist. -/
structure SpaceInv (c : Configuration) (a : AddressSpace) : Prop where
  pages_rise : keysRise a.pageTable = true
  pages_in_range : ∀ page f, frameOf page a.pageTable = some f → page < c.pageCount
  frames_distinct : ∀ page page' f,
    frameOf page a.pageTable = some f → frameOf page' a.pageTable = some f → page = page'
  occupied_iff_bound : ∀ f, f ∈ a.occupied ↔ ∃ page, frameOf page a.pageTable = some f
  occupied_prefix : a.occupied = List.range a.pageTable.length
  within_frames : a.pageTable.length ≤ c.frameCount

/-- Memory is in canonical form and lists only physical addresses that exist (20_memory.md R37, R38). -/
structure MemInv (s : State) : Prop where
  canonical : Memory.wf s.empty s.mem = true
  physical : ∀ pa w, lookup pa s.mem = some w → pa < s.config.physicalSize

/-- An event that ends a run: `Interrupt` and `StopNote` are always the last event (60_exceptions.md R119). -/
def Event.terminal : Event → Bool
  | .out _ => false
  | .interrupt _ _ => true
  | .invalidParam => false
  | .stopNote => true

/-- An `Out` event, the normative output (10_state.md R33). -/
def Event.isOut : Event → Bool
  | .out _ => true
  | .interrupt _ _ => false
  | .invalidParam => false
  | .stopNote => false

/-- The run state is sound (10_state.md R27; 60_exceptions.md R117 to R119): while Running no fault is pending and no
terminal event has been logged; Halted, the last event is the only terminal one, and it is `StopNote` with `pf` none,
or the `Interrupt` of the kind in `pf` at the pc; `pf` is never Stop (C1); and before START the status is Running
(10_state.md R36). -/
structure RunInv (s : State) : Prop where
  running_clean : s.status = .running → s.pf = .none ∧ ∀ e ∈ s.trace, e.terminal = false
  halted_logged : s.status = .halted → ∃ earlier last, s.trace = earlier ++ [last] ∧
    (∀ e ∈ earlier, e.terminal = false) ∧
    (last = .stopNote ∧ s.pf = .none ∨ last = .interrupt s.pf s.pc ∧ s.pf ≠ .none)
  pf_not_stop : s.pf ≠ .stop
  not_started : s.boot ≠ .started → s.status = .running

/-- A safe state of the block. Every step keeps it, and reset has it, whatever the accepted configuration. -/
structure Safe (s : State) : Prop where
  config_accepted : s.config.accepted = true
  space : SpaceInv s.config s.space
  mem : MemInv s
  run : RunInv s

end Sys2Proof.Machine
end

