-- ==== Sys2Proof/Certificates/Slice0/Obligations.lean ====
section
/-! DEFINITION. The statements for the provers. Each docstring names the rule of spec/ it formalises. A statement about
a state is about every configuration, every REG_INIT and every EMPTY_P, since State holds them (log entries 1, 3, 4). -/

open Sys2Proof Sys2Proof.Machine

/-! ### Encoding (30_encoding.md) -/

/-- Every instruction, with every operand, decodes from the Word the encoder writes for it (R61, R64, R70). Derived:
it rests on the tag numbers (D12) and on log entry 7 (DATA is the instruction `data`). -/
def Obligations.DecodeInvertsEncode : Prop :=
  ∀ i : Instr, decode (encode i) = .instr i

/-- The other direction: an instruction read from a Word has that Word's tag and, in each field the table of R61 gives
a role, exactly that Word's field. Derived from the used-field table of R61; for DATA it rests on log entry 7. -/
def Obligations.DecodeKeepsTagAndUsedFields : Prop :=
  ∀ (w : Word) (i : Instr), decode w = .instr i →
    (encode i).op = w.op ∧ (usesRa w.op = true → (encode i).ra = w.ra) ∧
    (usesRb w.op = true → (encode i).rb = w.rb) ∧ (usesP w.op = true → (encode i).p = w.p)

/-- A Word decodes exactly when its tag is one of the 27 and every used register field is in 0..9 (R64, R68). DATA
words decode to the instruction `data`, whose meaning raises InvalidInstruction (log entry 7). Derived: the register
range is D10, and DATA decoding to an instruction is log entry 7. -/
def Obligations.DecodeAcceptsExactlyLegalWords : Prop :=
  ∀ w : Word, (∃ i, decode w = .instr i) ↔
    w.op.toNat ≤ 0x1A ∧ (usesRa w.op = true → 0 ≤ w.ra.toInt ∧ w.ra.toInt < 10) ∧
    (usesRb w.op = true → 0 ≤ w.rb.toInt ∧ w.rb.toInt < 10)

/-- Two Words with the same tag that agree on the used fields decode alike, whatever their unused fields hold (R62).
Derived: the decoder's part of R62. -/
def Obligations.UnusedFieldsAreIgnored : Prop :=
  ∀ w v : Word, v.op = w.op → (usesRa w.op = true → v.ra = w.ra) → (usesRb w.op = true → v.rb = w.rb) →
    (usesP w.op = true → v.p = w.p) → ∀ i, decode w = .instr i → decode v = .instr i

/-- The reference layout (R60): op [103:96], ra [95:64], rb [63:32], p [31:0], and nothing lost either way; tags 0x1B
to 0xFF are unrecognized; the all-zero vector is the Word EMPTY, 0, 0, 0. Derived: the layout is the spec's own
decision D12. -/
def Obligations.ReferenceLayoutHoldsTheFourFields : Prop :=
  (∀ w : Word, w.toBits.extractLsb' 96 8 = w.op ∧ w.toBits.extractLsb' 64 32 = w.ra ∧
    w.toBits.extractLsb' 32 32 = w.rb ∧ w.toBits.extractLsb' 0 32 = w.p) ∧
  (∀ w : Word, Word.ofBits w.toBits = w) ∧ (∀ b : BitVec 104, (Word.ofBits b).toBits = b) ∧
  (∀ w : Word, 0x1B ≤ w.op.toNat → decode w = .rejected (.unrecognizedTag w.op)) ∧
  Word.ofBits 0 = ⟨0x00, 0, 0, 0⟩ ∧ decodeBits 0 = .instr .empty

/-- Words written out from the layout of R60 and the tags of R61, one or two of each family, decode to the
instructions they stand for (encodings of 95_test_vectors.md sections 2 and 3). Derived: a sanity check of the decoder
on the words of 95_test_vectors.md. -/
def Obligations.SampleWordsDecode : Prop :=
  decodeBits 0x02_00000001_FFFFFFFF_FFFFFFFF#104 = .instr (.ldi 1 (-1)) ∧
  decodeBits 0x05_00000001_FFFFFFFF_0000000A#104 = .instr (.std 1 10) ∧
  decodeBits 0x04_00000003_00000000_FFFFFFFF#104 = .instr (.ldx 3 0) ∧
  decodeBits 0x09_00000000_00000006_FFFFFFFF#104 = .instr (.sub 0 6) ∧
  decodeBits 0x0C_00000000_FFFFFFFF_00008000#104 = .instr (.subi 0 32768) ∧
  decodeBits 0x11_00000007_00000000_FFFFFFFF#104 = .instr (.jmpie 7 0) ∧
  decodeBits 0x18_00000002_00000000_00000003#104 = .instr (.jmpigt 2 0 3) ∧
  decodeBits 0x19_00000032_00000032_FFFFFFFF#104 = .instr .syscall ∧
  decodeBits 0x02_0000000A_FFFFFFFF_00000001#104 = .rejected (.raOutOfRange 10)

/-- The assembler (R70, R61): the line of an instruction, whatever program it stands in, assembles to the Word the
encoder writes for it, with every operand; and a label stands for the address of its line. Derived: the syntax is the
spec's own decision D19, and the form of lines and labels is log entry 22. -/
def Obligations.AssembledInstructionIsItsEncoding : Prop :=
  (∀ (i : Instr) (program : List AsmLine), asmWord program (lineOf i) = some (encode i)) ∧
  (∀ (before after : List AsmLine) (line : AsmLine) (name : String), name ∈ line.labels →
    (∀ l ∈ before, name ∉ l.labels) →
    asmValue (before ++ line :: after) (.label name) = some (BitVec.ofNat 32 before.length))

/-! ### Data transfer (40_data_transfer.md) -/

/-- LDI and MOVE (R74, R79). The tag numbers are the spec's own decision D12. -/
def Obligations.LdiAndMoveWriteTheirRegister : Prop :=
  (∀ (ra : Reg) (p : I32) (s : State), (encode (.ldi ra p)).op = 0x02 ∧
    ∃ t, exec (.ldi ra p) s = .next t ∧ readReg ra t = p ∧ SameRegsBut ra s t ∧ t.pc = s.pc + 1 ∧
      SameMemory s t ∧ t.space = s.space ∧ SameControl s t) ∧
  (∀ (ra rb : Reg) (s : State), (encode (.move ra rb)).op = 0x07 ∧
    ∃ t, exec (.move ra rb) s = .next t ∧ readReg ra t = readReg rb s ∧ SameRegsBut ra s t ∧ t.pc = s.pc + 1 ∧
      SameMemory s t ∧ t.space = s.space ∧ SameControl s t)

/-- LDD and LDX (R75, R76): on an accessible address the payload is loaded; on any other, InvalidAddress is recorded
and nothing else changes. The address of LDX is read before its register is written. Derived: that the `p` of a Word
of any tag is loaded is the spec's own decision D11, and that a faulting LDX keeps the pc is D6; the tag numbers are
D12. -/
def Obligations.LoadsReadThePayloadAtTheAddress : Prop :=
  ∀ (ra rb : Reg) (p : I32) (s : State), s.config.accepted = true →
    (encode (.ldd ra p)).op = 0x03 ∧ (encode (.ldx ra rb)).op = 0x04 ∧
    (Accessible p s → ∃ t, exec (.ldd ra p) s = .next t ∧ LoadEffect ra p s t) ∧
    (¬ Accessible p s → exec (.ldd ra p) s = .next (addressFault s)) ∧
    (Accessible (readReg rb s) s → ∃ t, exec (.ldx ra rb) s = .next t ∧ LoadEffect ra (readReg rb s) s t) ∧
    (¬ Accessible (readReg rb s) s → exec (.ldx ra rb) s = .next (addressFault s))

/-- STD and STX (R77, R78): on an accessible address the whole slot becomes the data word of the source register; on
any other, InvalidAddress is recorded and nothing else changes. Derived: that a faulting store changes nothing but
`pf` is the spec's own decision D6, and the -1 in the unused fields of the stored Word is D5; the tag numbers are D12.
-/
def Obligations.StoresReplaceTheWholeSlot : Prop :=
  ∀ (ra rb : Reg) (p : I32) (s : State), s.config.accepted = true →
    (encode (.std ra p)).op = 0x05 ∧ (encode (.stx ra rb)).op = 0x06 ∧
    (Accessible p s → ∃ t, exec (.std ra p) s = .next t ∧ StoreEffect p (readReg ra s) s t) ∧
    (¬ Accessible p s → exec (.std ra p) s = .next (addressFault s)) ∧
    (Accessible (readReg ra s) s → ∃ t, exec (.stx ra rb) s = .next t ∧
      StoreEffect (readReg ra s) (readReg rb s) s t) ∧
    (¬ Accessible (readReg ra s) s → exec (.stx ra rb) s = .next (addressFault s))

/-- A faulting access commits nothing (R73): no register, no memory, no pc, and the end-of-cycle check then halts the
machine and logs the address of the faulting instruction. Derived: R73 extends the document's LDD row to the other
three by its own decision D6. -/
def Obligations.FaultingDataAccessCommitsNothing : Prop :=
  ∀ (i : Instr) (va : I32) (s : State), s.config.accepted = true → ¬ Accessible va s →
    ((∃ ra, i = .ldd ra va) ∨ (∃ ra rb, i = .ldx ra rb ∧ va = readReg rb s) ∨
      (∃ ra, i = .std ra va) ∨ (∃ ra rb, i = .stx ra rb ∧ va = readReg ra s)) →
    ∃ t, finishCycle (exec i s) = .next t ∧ SameRegs s t ∧ SameMemory s t ∧ t.pc = s.pc ∧ t.space = s.space ∧
      t.pf = .invalidAddress ∧ t.status = .halted ∧ t.trace = s.trace ++ [.interrupt .invalidAddress s.pc]

/-! ### Arithmetic (41_arithmetic.md) -/

/-- ADD, SUB and MULT (R83, R84, R85), for every pair of registers, equal ones among them. That the result wraps at 32
bits and that the check tests the wrapped result are the spec's own decision D1 (R80, R81), and the tag numbers are
D12. -/
def Obligations.RegisterArithmeticWrapsAndChecks : Prop :=
  ∀ (ra rb : Reg) (s : State),
    (encode (.add ra rb)).op = 0x08 ∧ (encode (.sub ra rb)).op = 0x09 ∧ (encode (.mult ra rb)).op = 0x0A ∧
    (∃ t, exec (.add ra rb) s = .next t ∧
      ArithmeticEffect ra ((readReg ra s).toInt + (readReg rb s).toInt) s t) ∧
    (∃ t, exec (.sub ra rb) s = .next t ∧
      ArithmeticEffect ra ((readReg ra s).toInt - (readReg rb s).toInt) s t) ∧
    (∃ t, exec (.mult ra rb) s = .next t ∧
      ArithmeticEffect ra ((readReg ra s).toInt * (readReg rb s).toInt) s t)

/-- ADDI and SUBI (R86, R87), for every immediate. That the result wraps at 32 bits and that the check tests the
wrapped result are the spec's own decision D1 (R80, R81), and the tag numbers are D12. -/
def Obligations.ImmediateArithmeticWrapsAndChecks : Prop :=
  ∀ (ra : Reg) (p : I32) (s : State),
    (encode (.addi ra p)).op = 0x0B ∧ (encode (.subi ra p)).op = 0x0C ∧
    (∃ t, exec (.addi ra p) s = .next t ∧ ArithmeticEffect ra ((readReg ra s).toInt + p.toInt) s t) ∧
    (∃ t, exec (.subi ra p) s = .next t ∧ ArithmeticEffect ra ((readReg ra s).toInt - p.toInt) s t)

/-- The overflow check over a whole cycle (R81, R82; 70_reset_and_hazards.md R138): the wrapped result is written and
the pc advances whatever the check says; out of range, the same cycle records Overflow, logs the pc past the
instruction and halts; in range, the machine runs on with nothing recorded, whatever the operands were. Derived: that
the check tests the wrapped result is the spec's own decision D1, and that it never tests the operands is its own
inference in R82. -/
def Obligations.OverflowHaltsOnlyAfterTheInstructionCompletes : Prop :=
  ∀ (i : Instr) (ra : Reg) (n : Int) (s : State), s.pf = .none → executing s = some i → ArithmeticOf i s ra n →
    ∃ t, step s = .next t ∧ (readReg ra t).toInt = n.bmod (2 ^ 32) ∧ SameRegsBut ra s t ∧ t.pc = s.pc + 1 ∧
      SameMemory s t ∧ t.space = (afterTranslate s.pc s).space ∧ t.config = s.config ∧ t.boot = s.boot ∧
      (¬ (-32767 ≤ n.bmod (2 ^ 32) ∧ n.bmod (2 ^ 32) ≤ 32767) →
        t.pf = .overflow ∧ t.status = .halted ∧ t.trace = s.trace ++ [.interrupt .overflow (s.pc + 1)]) ∧
      (-32767 ≤ n.bmod (2 ^ 32) ∧ n.bmod (2 ^ 32) ≤ 32767 →
        t.pf = .none ∧ t.status = .running ∧ t.trace = s.trace)

/-! ### Control transfer (42_control.md) -/

/-- JMP, the K forms and JMPIGT (R92, R97, R98, R99, R103): the immediate target when the signed, strict condition
holds, else the next address; nothing else changes. The tag numbers are the spec's own decision D12. -/
def Obligations.ImmediateTargetJumpsWriteOnlyThePc : Prop :=
  ∀ (ra rb : Reg) (p : I32) (s : State),
    (encode (.jmp p)).op = 0x0D ∧ (encode (.jmpigk rb p)).op = 0x12 ∧ (encode (.jmpilk rb p)).op = 0x13 ∧
    (encode (.jmpiek rb p)).op = 0x14 ∧ (encode (.jmpigt ra rb p)).op = 0x18 ∧
    (∃ t, exec (.jmp p) s = .next t ∧ OnlyPcChanges s t ∧ t.pc = p) ∧
    (∃ t, exec (.jmpigk rb p) s = .next t ∧ OnlyPcChanges s t ∧
      t.pc = if 0 < (readReg rb s).toInt then p else s.pc + 1) ∧
    (∃ t, exec (.jmpilk rb p) s = .next t ∧ OnlyPcChanges s t ∧
      t.pc = if (readReg rb s).toInt < 0 then p else s.pc + 1) ∧
    (∃ t, exec (.jmpiek rb p) s = .next t ∧ OnlyPcChanges s t ∧
      t.pc = if (readReg rb s).toInt = 0 then p else s.pc + 1) ∧
    (∃ t, exec (.jmpigt ra rb p) s = .next t ∧ OnlyPcChanges s t ∧
      t.pc = if (readReg rb s).toInt < (readReg ra s).toInt then p else s.pc + 1)

/-- JMPIG, JMPIL and JMPIE (R94, R95, R96): the target is the register `ra`. The tag numbers are the spec's own
decision D12. -/
def Obligations.RegisterTargetJumpsWriteOnlyThePc : Prop :=
  ∀ (ra rb : Reg) (s : State),
    (encode (.jmpig ra rb)).op = 0x0F ∧ (encode (.jmpil ra rb)).op = 0x10 ∧ (encode (.jmpie ra rb)).op = 0x11 ∧
    (∃ t, exec (.jmpig ra rb) s = .next t ∧ OnlyPcChanges s t ∧
      t.pc = if 0 < (readReg rb s).toInt then readReg ra s else s.pc + 1) ∧
    (∃ t, exec (.jmpil ra rb) s = .next t ∧ OnlyPcChanges s t ∧
      t.pc = if (readReg rb s).toInt < 0 then readReg ra s else s.pc + 1) ∧
    (∃ t, exec (.jmpie ra rb) s = .next t ∧ OnlyPcChanges s t ∧
      t.pc = if (readReg rb s).toInt = 0 then readReg ra s else s.pc + 1)

/-- JMPIM (R93): always translates; on an inaccessible address only InvalidAddress is recorded. Derived: that the `p`
of a Word of any tag is the target is the spec's own decision D11, and that the pc is kept on a fault is D6; the tag
number is D12. -/
def Obligations.JmpimJumpsThroughMemory : Prop :=
  ∀ (p : I32) (s : State), s.config.accepted = true →
    (encode (.jmpim p)).op = 0x0E ∧
    (Accessible p s → ∃ t, exec (.jmpim p) s = .next t ∧ JumpThroughEffect p s t) ∧
    (¬ Accessible p s → exec (.jmpim p) s = .next (addressFault s))

/-- JMPIGM, JMPILM and JMPIEM (R100, R101, R102; R91): through memory when the condition holds; when it fails, the
next address, with no translation and no fault, whatever `p` is. Derived: that nothing is translated when the
condition fails is the spec's own decision D8, that the pc is kept on a fault is D6, and that the `p` of a Word of any
tag is the target is D11; the tag numbers are D12. -/
def Obligations.ConditionalJumpsThroughMemoryTranslateOnlyWhenTaken : Prop :=
  ∀ (i : Instr) (rb : Reg) (p : I32) (s : State) (cond : Prop), s.config.accepted = true →
    ((i = .jmpigm rb p ∧ (encode i).op = 0x15 ∧ (cond ↔ 0 < (readReg rb s).toInt)) ∨
      (i = .jmpilm rb p ∧ (encode i).op = 0x16 ∧ (cond ↔ (readReg rb s).toInt < 0)) ∨
      (i = .jmpiem rb p ∧ (encode i).op = 0x17 ∧ (cond ↔ (readReg rb s).toInt = 0))) →
    (cond → Accessible p s → ∃ t, exec i s = .next t ∧ JumpThroughEffect p s t) ∧
    (cond → ¬ Accessible p s → exec i s = .next (addressFault s)) ∧
    (¬ cond → ∃ t, exec i s = .next t ∧ OnlyPcChanges s t ∧ t.pc = s.pc + 1)

/-! ### System (43_system.md) -/

/-- EMPTY (R105) advances the pc and changes nothing else; its whole cycle changes the pc, binds the fetched page if
the fetch was its first reference, and runs on. The tag numbers are the spec's own decision D12. -/
def Obligations.EmptyOnlyAdvancesThePc : Prop :=
  (encode .empty).op = 0x00 ∧
  (∀ s : State, ∃ t, exec .empty s = .next t ∧ OnlyPcChanges s t ∧ t.pc = s.pc + 1) ∧
  ∀ s : State, executing s = some .empty → s.pf = .none →
    step s = .next { s with pc := s.pc + 1, space := (afterTranslate s.pc s).space }

/-- DATA (R104): executing it records InvalidInstruction and changes nothing else; in a cycle that fetches a data
word, whatever its payload, the machine halts with the data word's address logged, and registers, memory and pc are
kept. Derived: that DATA is an instruction with a meaning of its own is the model's (log entry 7), and `cpuRuns` is
log entry 5's. -/
def Obligations.DataWordsFaultWhenFetched : Prop :=
  (∀ s : State, exec .data s = .next { s with pf := .invalidInstruction }) ∧
  (∀ (w : Word) (s : State), cpuRuns s = true → fetched s = some w → w.op = 0x01 →
    step s = .next { s with
      space := (afterTranslate s.pc s).space
      pf := .invalidInstruction
      status := .halted
      trace := s.trace ++ [.interrupt .invalidInstruction s.pc] })

/-- SYSCALL (R106 to R109): selector 1 does nothing; selector 2 emits the payload at r9 or, when that address is not
accessible, records InvalidAddress with no output; any other selector logs InvalidParam. The pc advances in every
case, and no register and no memory is written. Derived: that a failed write sets `pf` and still advances the pc is
the spec's own decision D7, and that the `p` of a Word of any tag is emitted is D11. -/
def Obligations.SyscallDispatchesOnR8 : Prop :=
  (encode .syscall).op = 0x19 ∧
  ∀ s : State, s.config.accepted = true →
    ∃ t, exec .syscall s = .next t ∧ t.pc = s.pc + 1 ∧ SameRegs s t ∧ SameMemory s t ∧ t.status = s.status ∧
      t.config = s.config ∧ t.boot = s.boot ∧
      (readReg 8 s = 1 → t.pf = s.pf ∧ t.trace = s.trace ∧ t.space = s.space) ∧
      (readReg 8 s = 2 → Accessible (readReg 9 s) s → ∃ pa, translated (readReg 9 s) s = some pa ∧ t.pf = s.pf ∧
        t.trace = s.trace ++ [.out (physRead pa s).p] ∧ t.space = (afterTranslate (readReg 9 s) s).space) ∧
      (readReg 8 s = 2 → ¬ Accessible (readReg 9 s) s →
        t.pf = .invalidAddress ∧ t.trace = s.trace ∧ t.space = s.space) ∧
      (readReg 8 s ≠ 1 → readReg 8 s ≠ 2 →
        t.pf = s.pf ∧ t.trace = s.trace ++ [.invalidParam] ∧ t.space = s.space)

/-- SYSCALL with selector 1 does nothing but advance the pc, whatever r9 holds (R107); with a selector other than 1
and 2 it logs InvalidParam and advances the pc (R109). That r9 is not read for selector 1 is the spec's own decision
D28. -/
def Obligations.SyscallReadAndInvalidSelectorsHaveNoOtherEffect : Prop :=
  ∀ s : State,
    (readReg 8 s = 1 → exec .syscall s = .next { s with pc := s.pc + 1 }) ∧
    (readReg 8 s ≠ 1 → readReg 8 s ≠ 2 →
      exec .syscall s = .next { s with pc := s.pc + 1, trace := s.trace ++ [.invalidParam] })

/-- STOP (R110): logs StopNote and halts directly; `pf` is not written, the pc does not move, and in a cycle entered
with no fault pending the InterruptController logs nothing. Derived: that STOP keeps the pc is the spec's own decision
D20. -/
def Obligations.StopHaltsWithoutTheInterruptController : Prop :=
  (encode .stop).op = 0x1A ∧
  (∀ s : State, exec .stop s = .next { s with status := .halted, trace := s.trace ++ [.stopNote] }) ∧
  (∀ s : State, executing s = some .stop → s.pf = .none →
    step s = .next { s with
      space := (afterTranslate s.pc s).space
      status := .halted
      trace := s.trace ++ [.stopNote] })

/-! ### The cycle and the run (30_encoding.md R65, 60_exceptions.md) -/

/-- A step runs the instruction that the Word at the pc decodes to, in the state after the fetch's translation, and
then makes the end-of-cycle check (R65). Derived: that a machine runs when START was accepted and the status is
Running is log entry 5. -/
def Obligations.StepRunsTheDecodedInstruction : Prop :=
  ∀ (s : State) (pa : Nat) (i : Instr), cpuRuns s = true → translated s.pc s = some pa →
    decode (physRead pa s) = .instr i → step s = finishCycle (exec i (afterTranslate s.pc s))

/-- A fetch fault changes nothing but `pf`, and the end-of-cycle check logs the pc that could not be fetched and halts
(R66, R65, R114). Derived: R66 is the spec's own inference, and `cpuRuns` is log entry 5's. -/
def Obligations.FetchFaultChangesOnlyPf : Prop :=
  ∀ s : State, s.config.accepted = true → cpuRuns s = true → ¬ Accessible s.pc s →
    step s = .next { s with
      pf := .invalidAddress
      status := .halted
      trace := s.trace ++ [.interrupt .invalidAddress s.pc] }

/-- Decode over a whole cycle (R64, R68): a Word with an unrecognized tag, a DATA word, or a used register field out
of 0..9 raises InvalidInstruction with no effect but the fetch's own page binding, and halts the machine; every other
Word executes. Derived: the check of the register fields is the spec's own decision D10, and `cpuRuns` is log entry
5's. -/
def Obligations.IllegalWordsRaiseInvalidInstruction : Prop :=
  ∀ (s : State) (w : Word), cpuRuns s = true → fetched s = some w →
    ((0x1A < w.op.toNat ∨ w.op = 0x01 ∨ (usesRa w.op = true ∧ ¬ (0 ≤ w.ra.toInt ∧ w.ra.toInt < 10)) ∨
        (usesRb w.op = true ∧ ¬ (0 ≤ w.rb.toInt ∧ w.rb.toInt < 10))) →
      step s = .next { s with
        space := (afterTranslate s.pc s).space
        pf := .invalidInstruction
        status := .halted
        trace := s.trace ++ [.interrupt .invalidInstruction s.pc] }) ∧
    (¬ (0x1A < w.op.toNat ∨ w.op = 0x01 ∨ (usesRa w.op = true ∧ ¬ (0 ≤ w.ra.toInt ∧ w.ra.toInt < 10)) ∨
        (usesRb w.op = true ∧ ¬ (0 ≤ w.rb.toInt ∧ w.rb.toInt < 10))) →
      ∃ i, i ≠ .data ∧ decode w = .instr i ∧ step s = finishCycle (exec i (afterTranslate s.pc s)))

/-- The end-of-cycle check (R114) with the InterruptController it calls (R115): with no fault pending it does nothing;
otherwise it logs the kind and the current pc and halts, and changes nothing else. Every cycle of the CPU ends with
exactly one. Derived: that the pc logged is the one the pc holds when the check runs is the spec's own decision D25.
-/
def Obligations.EndOfCycleCheckLogsAndHalts : Prop :=
  (∀ s : State, s.pf = .none → endOfCycle s = s) ∧
  (∀ s : State, s.pf ≠ .none →
    endOfCycle s = { s with status := .halted, trace := s.trace ++ [.interrupt s.pf s.pc] }) ∧
  (∀ s t : State, cpuRuns s = true → step s = .next t → ∃ u, t = endOfCycle u ∧
    (u.trace = s.trace ∨ ∃ e, u.trace = s.trace ++ [e] ∧ ∀ k v, e ≠ .interrupt k v))

/-- What pc the InterruptController logs (R115): in a cycle that ends with a fault, the single new event is the
Interrupt of that kind at the pc after the cycle, which is the instruction's own address, or one past it for an
Overflow and for a failed SYSCALL write. Derived: the logged pcs are the spec's own decisions D6, D7 and D25. -/
def Obligations.LoggedPcOfEachFault : Prop :=
  ∀ s t : State, cpuRuns s = true → s.pf = .none → step s = .next t → t.pf ≠ .none →
    t.status = .halted ∧ t.trace = s.trace ++ [.interrupt t.pf t.pc] ∧
    (t.pf = .overflow → t.pc = s.pc + 1) ∧
    (t.pf = .invalidInstruction → t.pc = s.pc) ∧
    (t.pf = .invalidAddress → executing s ≠ some .syscall → t.pc = s.pc) ∧
    (t.pf = .invalidAddress → executing s = some .syscall → t.pc = s.pc + 1)

/-- The run state machine (R117): reset gives Running with no fault; a cycle leaves Running exactly when it ends with
a fault, which the InterruptController logs, or executes STOP, which it does not; and Halted is terminal. Derived:
that Halted is terminal is the spec's own decision D23, and a step there repeating the state is log entry 17. -/
def Obligations.RunStateMachineTransitions : Prop :=
  (∀ c r, (State.construct c r).status = .running ∧ (State.construct c r).pf = .none) ∧
  (∀ s t : State, cpuRuns s = true → s.pf = .none → step s = .next t →
    (t.pf = .none → executing s ≠ some .stop → t.status = .running ∧ ∀ k v, t.trace ≠ s.trace ++ [.interrupt k v]) ∧
    (t.pf ≠ .none → t.status = .halted ∧ t.trace = s.trace ++ [.interrupt t.pf t.pc]) ∧
    (executing s = some .stop → t.pf = .none ∧ t.status = .halted ∧ t.trace = s.trace ++ [.stopNote])) ∧
  (∀ s : State, s.status = .halted → step s = .next s)

/-- Every step of the machine answers a next state, from every state at all: no ordinary data, no Word and no address
ends a run of the model. Derived: that the model has no fault of its own is log entry 11. -/
def Obligations.EveryStepAnswersANextState : Prop :=
  ∀ s : State, ∃ t, step s = .next t

/-! ### Rules about every instruction -/

/-- Memory changes only by a cycle that executes STD or STX, and only a slot that then holds a data word: code can
only turn a slot into a data word (20_memory.md R57). Derived: R57 is the spec's own inference. -/
def Obligations.OnlyStoresChangeMemory : Prop :=
  ∀ (s t : State) (pa : Nat), step s = .next t → physRead pa t ≠ physRead pa s →
    ∃ i v, executing s = some i ∧ isStore i = true ∧ physRead pa t = ⟨0x01, -1, -1, v⟩

/-- A register changes only as the named destination of the executed instruction: none is written implicitly, r8 and
r9 included (10_state.md R21). Derived: from the destinations of the table of R61, and R21. -/
def Obligations.OnlyTheDestinationRegisterChanges : Prop :=
  ∀ (s t : State) (r : Reg), step s = .next t → readReg r t ≠ readReg r s →
    ∃ i, executing s = some i ∧ destReg i = some r

/-- The trace only grows, a cycle adds at most one event when no fault is pending, and a value leaves by OUT only when
SYSCALL is executed with 2 in r8 (10_state.md R33, 43_system.md R108). Derived: from R33 and the rules that emit. -/
def Obligations.TraceOnlyGrowsAndOnlySyscallWriteOutputs : Prop :=
  ∀ s t : State, s.pf = .none → step s = .next t →
    ∃ new, t.trace = s.trace ++ new ∧ new.length ≤ 1 ∧
      ∀ v, .out v ∈ new → executing s = some .syscall ∧ readReg 8 s = 2

/-- The configuration never changes while the block runs, and no step changes how far the boot has come (10_state.md
R32, 70_reset_and_hazards.md R134). Derived: that both are fields of State is the model's (log entries 10 and 5). -/
def Obligations.ConfigurationNeverChanges : Prop :=
  ∀ s t : State, step s = .next t → t.config = s.config ∧ t.boot = s.boot

/-! ### The address space (20_memory.md) -/

/-- `Allocate` (R41): the lowest free frame is bound to the page and marked occupied, and every other entry and frame
keeps its value; with no free frame, nothing changes. -/
def Obligations.AllocateIsFirstFit : Prop :=
  ∀ (frameCount : Nat) (pt : PageTable) (occ : Occupancy) (page : Nat),
    (∀ f, f < frameCount → f ∉ occ → (∀ g, g < f → g ∈ occ) →
      ∃ pt' occ', allocate frameCount pt occ page = (pt', occ', .bound f) ∧
        frameOf page pt' = some f ∧ (∀ q, q ≠ page → frameOf q pt' = frameOf q pt) ∧
        ∀ g, g ∈ occ' ↔ g = f ∨ g ∈ occ) ∧
    ((∀ f, f < frameCount → f ∈ occ) → allocate frameCount pt occ page = (pt, occ, .exhausted))

/-- `Translate` (R39): floor division into page and offset, and the physical address of the page's frame and the
offset after any allocation; the answer is a physical address that exists (R38). Derived: floor division is the spec's
own decision D9, and the range of the answer is its own inference in R38. -/
def Obligations.TranslateAnswersFrameTimesPageSizePlusOffset : Prop :=
  ∀ (va : I32) (s : State), s.config.accepted = true → SpaceInv s.config s.space → Accessible va s →
    ∃ page offset f : Nat, va.toInt = page * s.config.pageSize + offset ∧ offset < s.config.pageSize ∧
      frameOf page (afterTranslate va s).space.pageTable = some f ∧ f < s.config.frameCount ∧
      translated va s = some (f * s.config.pageSize + offset) ∧
      f * s.config.pageSize + offset < s.config.physicalSize

/-- When a translation succeeds and what it changes (R40): exactly on a valid address whose page is mapped or can be
bound; a failure changes nothing, and a success on a mapped page changes nothing. Derived: R40 is the spec's own
inference. -/
def Obligations.TranslateSucceedsExactlyOnAccessibleAddresses : Prop :=
  ∀ (va : I32) (s : State), s.config.accepted = true →
    ((translated va s).isSome ↔ 0 ≤ va.toInt ∧ va.toInt < (s.config.virtualSize : Int) ∧ PageReachable va s) ∧
    (translated va s = none → afterTranslate va s = s) ∧
    (0 ≤ va.toInt → va.toInt < (s.config.virtualSize : Int) →
      (∃ f, frameOf (pageOf s.config va).toNat s.space.pageTable = some f) →
      (translated va s).isSome ∧ afterTranslate va s = s)

/-- Frames go out in the order 0, 1, 2, ... of first reference (R45): in a sound address space the occupied frames are
0 to k-1 for the k mapped pages, and the next page to be bound gets frame k. Derived: R45 is the spec's own inference.
-/
def Obligations.FramesAreHandedOutInOrder : Prop :=
  ∀ (va : I32) (s : State), SpaceInv s.config s.space →
    (∀ f, f ∈ s.space.occupied ↔ f < s.space.pageTable.length) ∧
    ((translated va s).isSome → (∀ f, frameOf (pageOf s.config va).toNat s.space.pageTable ≠ some f) →
      frameOf (pageOf s.config va).toNat (afterTranslate va s).space.pageTable = some s.space.pageTable.length ∧
      (afterTranslate va s).space.pageTable.length = s.space.pageTable.length + 1 ∧
      ∀ f, f ∈ (afterTranslate va s).space.occupied ↔ f ≤ s.space.pageTable.length)

/-- Translation is consistent (R44): once an address has been answered, it has the same answer, and changes nothing,
at every later point of the run. Derived: R44 is the document's property, inferred in the spec from R43(d). -/
def Obligations.TranslationIsConsistentAlongARun : Prop :=
  ∀ (va : I32) (pa k : Nat) (s t : State), translated va s = some pa →
    Sys2Proof.core.run k (afterTranslate va s) = .next t → translated va t = some pa ∧ afterTranslate va t = t

/-- A binding is never undone (R43(d)): along a run a mapped entry keeps its frame and an occupied frame stays
occupied. Derived: R43 is the spec's own inference. -/
def Obligations.BindingsArePermanentAlongARun : Prop :=
  ∀ (k : Nat) (s t : State), Sys2Proof.core.run k s = .next t →
    (∀ page f, frameOf page s.space.pageTable = some f → frameOf page t.space.pageTable = some f) ∧
    (∀ f, f ∈ s.space.occupied → f ∈ t.space.occupied)

/-- Exhaustion is for ever (R42): with no frame free, `Allocate` answers Exhausted and changes nothing; a reference to
an unmapped page fails and changes nothing, and it fails at every later point of the run; the pages already mapped
keep translating to the same address. The page of an address is a floor quotient, the spec's own decision D9. -/
def Obligations.ExhaustionIsPermanentAlongARun : Prop :=
  ∀ (va : I32) (k : Nat) (s t : State), (∀ f, f < s.config.frameCount → f ∈ s.space.occupied) →
    Sys2Proof.core.run k s = .next t →
    (∀ page, allocate s.config.frameCount s.space.pageTable s.space.occupied page =
      (s.space.pageTable, s.space.occupied, .exhausted)) ∧
    ((∀ f, frameOf (pageOf s.config va).toNat s.space.pageTable ≠ some f) →
      translated va s = none ∧ afterTranslate va s = s ∧ translated va t = none ∧ afterTranslate va t = t) ∧
    (∀ pa, translated va s = some pa → translated va t = some pa)

/-- A slot reads as what was last written to it (R38, R54), other slots are untouched, memory keeps its canonical
form, and in that form writing back what a slot holds changes nothing. Derived: the canonical form is the model's (log
entry 6). -/
def Obligations.PhysicalMemoryReadsTheLastWrite : Prop :=
  ∀ (pa : Nat) (w : Word) (s : State),
    physRead pa (physWrite pa w s) = w ∧
    (∀ qa, qa ≠ pa → physRead qa (physWrite pa w s) = physRead qa s) ∧
    (Memory.wf s.empty s.mem = true →
      Memory.wf (physWrite pa w s).empty (physWrite pa w s).mem = true ∧ physWrite pa (physRead pa s) s = s)

/-! ### Invariants -/

/-- Every step keeps a safe state safe (R43; 10_state.md R27, R30, R31; 60_exceptions.md R117 to R119): the address
space sound, memory canonical, the run state sound. Derived: the parts are the spec's own inferences (R43, R119), the
canonical form of log entry 6 and the boot phase of log entry 5. -/
def Obligations.StepKeepsTheInvariant : Prop :=
  ∀ s t : State, Safe s → step s = .next t → Safe t

/-- Every accepted configuration constructs a safe state, and `State.reset` is one (70_reset_and_hazards.md R130).
Derived: the configuration of `State.reset` is the model's (log entry 3). -/
def Obligations.ResetIsSafe : Prop :=
  (∀ (c : Configuration) (r : Vector I32 Config.nRegs), c.accepted = true → Safe (State.construct c r)) ∧
  Safe State.reset

/-- The host's ports keep a safe state safe (70_reset_and_hazards.md R131 to R136). Derived: the ports are the spec's
own transaction-level reading (D18), and functions beside `step` by log entry 12. -/
def Obligations.PortsKeepTheInvariant : Prop :=
  (∀ v p g r e t, portConfig v p g r e = .next t → Safe t) ∧
  (∀ image s t, Safe s → portLoad image s = .next t → Safe t) ∧
  (∀ a s t, Safe s → portStart a s = .next t → Safe t) ∧
  (∀ lo hi s t words, Safe s → portDump lo hi s = .next (t, words) → Safe t)

/-- The event that ends a run is logged once and last (60_exceptions.md R119): along a run from a safe state, nothing
follows an Interrupt or a StopNote, and none stands before it. Derived: that the two never occur together is the
spec's own inference in R119. -/
def Obligations.TerminalEventIsOnceAndLast : Prop :=
  ∀ (k : Nat) (s t : State), Safe s → Sys2Proof.core.run k s = .next t →
    ∀ before e after, t.trace = before ++ e :: after → e.terminal = true →
      after = [] ∧ ∀ d ∈ before, d.terminal = false

/-- STATUS (60_exceptions.md R118) gives `status` and `pf`, and the pair tells the halt paths apart: in a safe state
(Halted, none) means that the run ended with a StopNote, (Halted, k) that it ended with the Interrupt of kind k, and
(Running, none) that the machine has not halted and no event has ended the run; a Halted machine answers (Halted, pf)
and a Running one (Running, none). -/
def Obligations.StatusTellsTheHaltPathsApart : Prop :=
  ∀ s : State, Safe s →
    (portStatus s = (.halted, .none) → s.status = .halted ∧ s.trace.getLast? = some .stopNote) ∧
    (∀ k, k ≠ .none → portStatus s = (.halted, k) →
      s.status = .halted ∧ s.trace.getLast? = some (.interrupt k s.pc)) ∧
    (portStatus s = (.running, .none) → s.status = .running ∧ ∀ e ∈ s.trace, e.terminal = false) ∧
    (s.status = .halted → portStatus s = (.halted, s.pf)) ∧
    (s.status = .running → portStatus s = (.running, .none))

/-! ### Reset and the ports (70_reset_and_hazards.md, 20_memory.md R46) -/

/-- The configuration check (R131): accepted exactly when the three sizes are positive, at most 2^31 - 1, and the page
size divides the other two; then pageCount and frameCount are the quotients. Derived: the refusal is the spec's own
decision D13; V4 of 95_test_vectors.md contradicts R131 (log entry 20). -/
def Obligations.ConfigAcceptsExactlyTheLegalSizes : Prop :=
  ∀ (v p g : Int) (r : Vector I32 Config.nRegs) (e : I32),
    ((0 < v ∧ 0 < p ∧ 0 < g ∧ v % g = 0 ∧ p % g = 0 ∧ v ≤ 2147483647 ∧ p ≤ 2147483647 ∧ g ≤ 2147483647) →
      ∃ s, portConfig v p g r e = .next s ∧ (s.config.virtualSize : Int) = v ∧ (s.config.physicalSize : Int) = p ∧
        (s.config.pageSize : Int) = g ∧ (s.config.pageCount : Int) = v / g ∧ (s.config.frameCount : Int) = p / g) ∧
    (¬ (0 < v ∧ 0 < p ∧ 0 < g ∧ v % g = 0 ∧ p % g = 0 ∧ v ≤ 2147483647 ∧ p ≤ 2147483647 ∧ g ≤ 2147483647) →
      portConfig v p g r e = .refused .invalidConfiguration)

/-- The state after reset (10_state.md R36), for every accepted configuration, REG_INIT and EMPTY_P: registers
REG_INIT, `pf` none, Running, every slot EmptyWord, every page UNMAPPED, every frame free, the trace empty. The pc is
unspecified and so not stated. That REG_INIT and EMPTY_P are open is D2 and D4, the -1 in the unused fields D5. -/
def Obligations.ResetLeavesTheStatedValues : Prop :=
  ∀ (v p g : Int) (r : Vector I32 Config.nRegs) (e : I32) (s : State), portConfig v p g r e = .next s →
    (∀ i, readReg i s = r[i]) ∧ s.pf = .none ∧ s.status = .running ∧
    (∀ pa, physRead pa s = ⟨0x00, -1, -1, e⟩) ∧ (∀ page, ptEntry page s.space.pageTable = -1) ∧
    (∀ f, f ∉ s.space.occupied) ∧ s.trace = []

/-- LOAD from the reset state (R132, R133): it succeeds exactly when the image fits both sizes; then it has bound
pages 0 to ceil(L / pageSize) - 1 to the same frames and no other page, every image Word reads back at its address as
the image gives it, and `pf`, `status` and the registers are not written. A failed load refuses START. Derived: the
success condition is the spec's own inference, the refusal its decision D22, and the boot phase log entries 5 and 13.
-/
def Obligations.LoadFromResetSucceedsExactlyWhenTheImageFits : Prop :=
  ∀ (c : Configuration) (r : Vector I32 Config.nRegs) (image : List Word), c.accepted = true →
    ∃ t, portLoad image (State.construct c r) = .next t ∧
      t.pf = .none ∧ t.status = .running ∧ t.regs = r ∧ t.trace = [] ∧
      (image.length ≤ c.virtualSize ∧ image.length ≤ c.physicalSize →
        t.boot = .loaded ∧
        (∀ page, frameOf page t.space.pageTable =
          if page < (image.length + c.pageSize - 1) / c.pageSize then some page else none) ∧
        ∀ i w, image[i]? = some w → peek (BitVec.ofNat 32 i) t = some w) ∧
      (¬ (image.length ≤ c.virtualSize ∧ image.length ≤ c.physicalSize) →
        (∃ i, i < image.length ∧ t.boot = .loadFailed i) ∧
        ∀ a, portStart a t = .refused .startNotAccepted)

/-- START (R134): only after a successful LOAD, once per reset; it sets the pc, lets the cycles run from then on, and
changes nothing else, the configuration among it. Before it no cycle runs, and after it no LOAD is accepted. Derived:
one LOAD and one START per reset is the spec's own decision D22; the boot phase is log entry 5, the repeated state log
entry 17. -/
def Obligations.StartIsAcceptedOnceAfterASuccessfulLoad : Prop :=
  ∀ (a : I32) (s : State),
    (s.boot = .loaded → ∃ t, portStart a s = .next t ∧ t = { s with pc := a, boot := .started } ∧
      (s.status = .running → cpuRuns t = true) ∧
      (∀ b, portStart b t = .refused .startNotAccepted) ∧
      ∀ image, portLoad image t = .refused .loadNotAccepted) ∧
    (s.boot ≠ .loaded → portStart a s = .refused .startNotAccepted) ∧
    (s.boot ≠ .started → step s = .next s)

/-- DUMP (R136): accepted exactly while the CPU is not running. It translates the addresses of the range in order, as
`Translate` does, and answers for each the Word that it reads as or Fail. So it keeps every binding there was, a valid
address answers Fail only when its page is unmapped with no frame free, each answer is what its address reads as
afterwards, and nothing but the address space changes. Derived: that DUMP allocates is the spec's own decision D17, and
the phases it is allowed in are log entry 14. -/
def Obligations.DumpReadsTheRangeAndOnlyBindsPages : Prop :=
  ∀ (lo hi : I32) (s : State), s.config.accepted = true →
    (cpuRuns s = true → portDump lo hi s = .refused .dumpNotAccepted) ∧
    (cpuRuns s = false → ∃ t words, portDump lo hi s = .next (t, words) ∧
      t = { s with space := spaceAfter s.config (addressesFrom lo (hi.toInt - lo.toInt).toNat) s.space } ∧
      words.length = (hi.toInt - lo.toInt).toNat ∧
      (∀ page f, frameOf page s.space.pageTable = some f → frameOf page t.space.pageTable = some f) ∧
      ∀ (k : Nat) (word : Option Word), words[k]? = some word →
        word = ((spaceAfter s.config (addressesFrom lo k) s.space).translate s.config
          (BitVec.ofInt 32 (lo.toInt + k))).1.map (fun pa => physRead pa s) ∧
        word = peek (BitVec.ofInt 32 (lo.toInt + k)) t ∧
        (word = none → 0 ≤ lo.toInt + k → lo.toInt + k < (s.config.virtualSize : Int) →
          (∀ f, frameOf ((lo.toInt + k) / s.config.pageSize).toNat t.space.pageTable ≠ some f) ∧
          ∀ f, f < s.config.frameCount → f ∈ t.space.occupied))

/-- The final observation (R140): there is one exactly in Halted; it holds STATUS, the registers, the pc, the page
table, the occupancy and the `Out` values of the trace in order; along a run it never changes once it is there; and in
a safe state it lists, for each virtual address of a mapped page and for no other, the Word that address reads as.
Derived: that a step in Halted repeats the state is log entry 17. -/
def Obligations.FinalObservationIsThatOfTheHaltedState : Prop :=
  (∀ s : State, (observe s).isSome ↔ s.status = .halted) ∧
  (∀ (s : State) (o : Observation), observe s = some o →
    o.status = (.halted, s.pf) ∧ o.regs = s.regs ∧ o.pc = s.pc ∧ o.pageTable = s.space.pageTable ∧
    o.occupied = s.space.occupied ∧ o.outputs = portOut s ∧
    o.outputs.map .out = s.trace.filter Event.isOut) ∧
  (∀ (k : Nat) (s t : State) (o : Observation), observe s = some o → Sys2Proof.core.run k s = .next t →
    observe t = some o) ∧
  (∀ (s : State) (o : Observation), Safe s → observe s = some o →
    ∀ (a : Nat) (w : Word), (a, w) ∈ o.memory ↔ a < s.config.virtualSize ∧ peek (BitVec.ofNat 32 a) s = some w)

/-- The standalone driver (20_memory.md R46): each answer, and the failure it stops at, is that of `Translate`, the
CPU's translator, in the address space that the addresses before it left; it stops at the first failure of either
cause, issues no further address, and changes no binding already made. Derived: stopping on an out-of-range address too
is the spec's own decision D21, and the form of the port is log entry 15. -/
def Obligations.StandaloneDriverStopsAtItsFirstFailure : Prop :=
  ∀ (c : Configuration) (vas : List I32) (a : AddressSpace),
    ((driverRun c vas a).stoppedAt = none →
      (driverRun c vas a).answered.length = vas.length ∧ (driverRun c vas a).space = spaceAfter c vas a) ∧
    (∀ va, (driverRun c vas a).stoppedAt = some va → ∃ before after, vas = before ++ va :: after ∧
      (driverRun c vas a).answered.length = before.length ∧ (driverRun c vas a).space = spaceAfter c before a ∧
      (spaceAfter c before a).translate c va = (none, spaceAfter c before a)) ∧
    (∀ (k : Nat) (va : I32) (pa : Nat), vas[k]? = some va → (driverRun c vas a).answered[k]? = some pa →
      ((spaceAfter c (vas.take k) a).translate c va).1 = some pa ∧
      (driverRun c vas a).space.translate c va = (some pa, (driverRun c vas a).space)) ∧
    (∀ page f, frameOf page a.pageTable = some f → frameOf page (driverRun c vas a).space.pageTable = some f)
end

