-- ==== Sys2Proof/Laws/Encoding.lean ====
section
/-! SUPPORT. Register fields and the decoder's helpers: the lemmas a proof about an encoding cites. -/

namespace Sys2Proof

@[simp] theorem regOf_regField (r : Reg) : regOf (regField r) = some r := by
  revert r
  decide

@[simp] theorem regInRange_regField (r : Reg) : regInRange (regField r) = true := by
  revert r
  decide

/-- A field that names a register is that register's field. -/
theorem regField_of_regOf {f : I32} {r : Reg} (h : regOf f = some r) : regField r = f := by
  unfold regOf at h
  split at h
  · rename_i hr
    cases h
    have ht : (f.toNat : Int) = f.toInt := by
      rw [BitVec.toInt_eq_toNat_cond]
      have h1 := hr.1
      rw [BitVec.toInt_eq_toNat_cond] at h1
      split at h1 <;> rename_i hc
      · rw [if_pos hc]
      · have := f.isLt
        omega
    apply BitVec.eq_of_toNat_eq
    have hlt := f.isLt
    simp only [regField, BitVec.toNat_ofNat]
    omega
  · cases h

theorem regOf_eq_none (f : I32) : regOf f = none ↔ regInRange f = false := by
  unfold regOf regInRange
  rw [decide_eq_false_iff_not]
  split
  · rename_i h
    exact ⟨fun e => (Option.some_ne_none _ e).elim, fun n => absurd h n⟩
  · rename_i h
    exact ⟨fun _ => h, fun _ => rfl⟩

/-- A field names a register exactly when it is in range (30_encoding.md R64). -/
theorem regOf_isSome_iff (f : I32) : (∃ r, regOf f = some r) ↔ 0 ≤ f.toInt ∧ f.toInt < 10 := by
  unfold regOf
  split
  · rename_i h
    exact ⟨fun _ => h, fun _ => ⟨_, rfl⟩⟩
  · rename_i h
    exact ⟨fun ⟨_, e⟩ => (Option.some_ne_none _ e.symm).elim, fun n => absurd n h⟩

/-! ### What the field checks answer: an instruction exactly when the fields are in range, with those fields -/

theorem withRa_instr (w : Word) {k : Reg → Instr} {i : Instr} (h : withRa w (fun ra => .instr (k ra)) = .instr i) :
    ∃ ra, regField ra = w.ra ∧ k ra = i := by
  unfold withRa at h
  split at h
  · exact ⟨_, regField_of_regOf (by assumption), by cases h; rfl⟩
  · cases h

theorem withRb_instr (w : Word) {k : Reg → Instr} {i : Instr} (h : withRb w (fun rb => .instr (k rb)) = .instr i) :
    ∃ rb, regField rb = w.rb ∧ k rb = i := by
  unfold withRb at h
  split at h
  · exact ⟨_, regField_of_regOf (by assumption), by cases h; rfl⟩
  · cases h

theorem withRaRb_instr (w : Word) {k : Reg → Reg → Instr} {i : Instr}
    (h : withRaRb w (fun ra rb => .instr (k ra rb)) = .instr i) :
    ∃ ra rb, regField ra = w.ra ∧ regField rb = w.rb ∧ k ra rb = i := by
  unfold withRaRb withRa at h
  split at h
  · obtain ⟨rb, hb, e⟩ := withRb_instr w h
    exact ⟨_, rb, regField_of_regOf (by assumption), hb, e⟩
  · cases h

theorem withRa_isInstr_iff (w : Word) (k : Reg → Instr) :
    (∃ i, withRa w (fun ra => .instr (k ra)) = .instr i) ↔ 0 ≤ w.ra.toInt ∧ w.ra.toInt < 10 := by
  rw [← regOf_isSome_iff]
  unfold withRa
  split <;> rename_i h <;> simp [h]

theorem withRb_isInstr_iff (w : Word) (k : Reg → Instr) :
    (∃ i, withRb w (fun rb => .instr (k rb)) = .instr i) ↔ 0 ≤ w.rb.toInt ∧ w.rb.toInt < 10 := by
  rw [← regOf_isSome_iff]
  unfold withRb
  split <;> rename_i h <;> simp [h]

theorem withRaRb_isInstr_iff (w : Word) (k : Reg → Reg → Instr) :
    (∃ i, withRaRb w (fun ra rb => .instr (k ra rb)) = .instr i) ↔
      (0 ≤ w.ra.toInt ∧ w.ra.toInt < 10) ∧ 0 ≤ w.rb.toInt ∧ w.rb.toInt < 10 := by
  rw [← regOf_isSome_iff, ← regOf_isSome_iff]
  unfold withRaRb withRa withRb
  split <;> rename_i h <;> simp [h]
  split <;> rename_i h <;> simp [h]

end Sys2Proof
end

