-- ==== Sys2Proof/Laws/State.lean ====
section
/-! SUPPORT. One lemma per field per update of the state, each true by unfolding once, so that no later proof unfolds a
record update; and what a register or a memory slot reads as after each update. -/

namespace Sys2Proof.Machine

variable (s : State)

/-! ### writeReg -/

@[simp] theorem writeReg_regs (r : Reg) (v : I32) : (writeReg r v s).regs = s.regs.set r v := rfl
@[simp] theorem writeReg_pc (r : Reg) (v : I32) : (writeReg r v s).pc = s.pc := rfl
@[simp] theorem writeReg_pf (r : Reg) (v : I32) : (writeReg r v s).pf = s.pf := rfl
@[simp] theorem writeReg_status (r : Reg) (v : I32) : (writeReg r v s).status = s.status := rfl
@[simp] theorem writeReg_mem (r : Reg) (v : I32) : (writeReg r v s).mem = s.mem := rfl
@[simp] theorem writeReg_space (r : Reg) (v : I32) : (writeReg r v s).space = s.space := rfl
@[simp] theorem writeReg_trace (r : Reg) (v : I32) : (writeReg r v s).trace = s.trace := rfl
@[simp] theorem writeReg_config (r : Reg) (v : I32) : (writeReg r v s).config = s.config := rfl
@[simp] theorem writeReg_boot (r : Reg) (v : I32) : (writeReg r v s).boot = s.boot := rfl

/-! ### setPc -/

@[simp] theorem setPc_regs (target : I32) : (setPc target s).regs = s.regs := rfl
@[simp] theorem setPc_pc (target : I32) : (setPc target s).pc = target := rfl
@[simp] theorem setPc_pf (target : I32) : (setPc target s).pf = s.pf := rfl
@[simp] theorem setPc_status (target : I32) : (setPc target s).status = s.status := rfl
@[simp] theorem setPc_mem (target : I32) : (setPc target s).mem = s.mem := rfl
@[simp] theorem setPc_space (target : I32) : (setPc target s).space = s.space := rfl
@[simp] theorem setPc_trace (target : I32) : (setPc target s).trace = s.trace := rfl
@[simp] theorem setPc_config (target : I32) : (setPc target s).config = s.config := rfl
@[simp] theorem setPc_boot (target : I32) : (setPc target s).boot = s.boot := rfl

/-! ### advancePc -/

@[simp] theorem advancePc_regs : (advancePc s).regs = s.regs := rfl
@[simp] theorem advancePc_pc : (advancePc s).pc = s.pc + 1 := rfl
@[simp] theorem advancePc_pf : (advancePc s).pf = s.pf := rfl
@[simp] theorem advancePc_status : (advancePc s).status = s.status := rfl
@[simp] theorem advancePc_mem : (advancePc s).mem = s.mem := rfl
@[simp] theorem advancePc_space : (advancePc s).space = s.space := rfl
@[simp] theorem advancePc_trace : (advancePc s).trace = s.trace := rfl
@[simp] theorem advancePc_config : (advancePc s).config = s.config := rfl
@[simp] theorem advancePc_boot : (advancePc s).boot = s.boot := rfl

/-! ### emit -/

@[simp] theorem emit_regs (e : Event) : (emit e s).regs = s.regs := rfl
@[simp] theorem emit_pc (e : Event) : (emit e s).pc = s.pc := rfl
@[simp] theorem emit_pf (e : Event) : (emit e s).pf = s.pf := rfl
@[simp] theorem emit_status (e : Event) : (emit e s).status = s.status := rfl
@[simp] theorem emit_mem (e : Event) : (emit e s).mem = s.mem := rfl
@[simp] theorem emit_space (e : Event) : (emit e s).space = s.space := rfl
@[simp] theorem emit_trace (e : Event) : (emit e s).trace = s.trace ++ [e] := rfl
@[simp] theorem emit_config (e : Event) : (emit e s).config = s.config := rfl
@[simp] theorem emit_boot (e : Event) : (emit e s).boot = s.boot := rfl

/-! ### setPf -/

@[simp] theorem setPf_regs (f : PendingFault) : (setPf f s).regs = s.regs := rfl
@[simp] theorem setPf_pc (f : PendingFault) : (setPf f s).pc = s.pc := rfl
@[simp] theorem setPf_pf (f : PendingFault) : (setPf f s).pf = f := rfl
@[simp] theorem setPf_status (f : PendingFault) : (setPf f s).status = s.status := rfl
@[simp] theorem setPf_mem (f : PendingFault) : (setPf f s).mem = s.mem := rfl
@[simp] theorem setPf_space (f : PendingFault) : (setPf f s).space = s.space := rfl
@[simp] theorem setPf_trace (f : PendingFault) : (setPf f s).trace = s.trace := rfl
@[simp] theorem setPf_config (f : PendingFault) : (setPf f s).config = s.config := rfl
@[simp] theorem setPf_boot (f : PendingFault) : (setPf f s).boot = s.boot := rfl

/-! ### raise -/

@[simp] theorem raise_regs (f : PendingFault) : (raise f s).regs = s.regs := rfl
@[simp] theorem raise_pc (f : PendingFault) : (raise f s).pc = s.pc := rfl
@[simp] theorem raise_pf (f : PendingFault) : (raise f s).pf = f := rfl
@[simp] theorem raise_status (f : PendingFault) : (raise f s).status = s.status := rfl
@[simp] theorem raise_mem (f : PendingFault) : (raise f s).mem = s.mem := rfl
@[simp] theorem raise_space (f : PendingFault) : (raise f s).space = s.space := rfl
@[simp] theorem raise_trace (f : PendingFault) : (raise f s).trace = s.trace := rfl
@[simp] theorem raise_config (f : PendingFault) : (raise f s).config = s.config := rfl
@[simp] theorem raise_boot (f : PendingFault) : (raise f s).boot = s.boot := rfl

/-! ### signalOverflow -/

@[simp] theorem signalOverflow_regs : (signalOverflow s).regs = s.regs := rfl
@[simp] theorem signalOverflow_pc : (signalOverflow s).pc = s.pc := rfl
@[simp] theorem signalOverflow_pf : (signalOverflow s).pf = .overflow := rfl
@[simp] theorem signalOverflow_status : (signalOverflow s).status = s.status := rfl
@[simp] theorem signalOverflow_mem : (signalOverflow s).mem = s.mem := rfl
@[simp] theorem signalOverflow_space : (signalOverflow s).space = s.space := rfl
@[simp] theorem signalOverflow_trace : (signalOverflow s).trace = s.trace := rfl
@[simp] theorem signalOverflow_config : (signalOverflow s).config = s.config := rfl
@[simp] theorem signalOverflow_boot : (signalOverflow s).boot = s.boot := rfl

/-! ### setStatus -/

@[simp] theorem setStatus_regs (st : CpuStatus) : (setStatus st s).regs = s.regs := rfl
@[simp] theorem setStatus_pc (st : CpuStatus) : (setStatus st s).pc = s.pc := rfl
@[simp] theorem setStatus_pf (st : CpuStatus) : (setStatus st s).pf = s.pf := rfl
@[simp] theorem setStatus_status (st : CpuStatus) : (setStatus st s).status = st := rfl
@[simp] theorem setStatus_mem (st : CpuStatus) : (setStatus st s).mem = s.mem := rfl
@[simp] theorem setStatus_space (st : CpuStatus) : (setStatus st s).space = s.space := rfl
@[simp] theorem setStatus_trace (st : CpuStatus) : (setStatus st s).trace = s.trace := rfl
@[simp] theorem setStatus_config (st : CpuStatus) : (setStatus st s).config = s.config := rfl
@[simp] theorem setStatus_boot (st : CpuStatus) : (setStatus st s).boot = s.boot := rfl

/-! ### interruptHandle -/

@[simp] theorem interruptHandle_regs (f : PendingFault) : (interruptHandle f s).regs = s.regs := rfl
@[simp] theorem interruptHandle_pc (f : PendingFault) : (interruptHandle f s).pc = s.pc := rfl
@[simp] theorem interruptHandle_pf (f : PendingFault) : (interruptHandle f s).pf = s.pf := rfl
@[simp] theorem interruptHandle_status (f : PendingFault) : (interruptHandle f s).status = s.status := rfl
@[simp] theorem interruptHandle_mem (f : PendingFault) : (interruptHandle f s).mem = s.mem := rfl
@[simp] theorem interruptHandle_space (f : PendingFault) : (interruptHandle f s).space = s.space := rfl
@[simp] theorem interruptHandle_trace (f : PendingFault) : (interruptHandle f s).trace = s.trace ++ [.interrupt f s.pc] := rfl
@[simp] theorem interruptHandle_config (f : PendingFault) : (interruptHandle f s).config = s.config := rfl
@[simp] theorem interruptHandle_boot (f : PendingFault) : (interruptHandle f s).boot = s.boot := rfl

/-! ### physWrite -/

@[simp] theorem physWrite_regs (pa : Nat) (w : Word) : (physWrite pa w s).regs = s.regs := rfl
@[simp] theorem physWrite_pc (pa : Nat) (w : Word) : (physWrite pa w s).pc = s.pc := rfl
@[simp] theorem physWrite_pf (pa : Nat) (w : Word) : (physWrite pa w s).pf = s.pf := rfl
@[simp] theorem physWrite_status (pa : Nat) (w : Word) : (physWrite pa w s).status = s.status := rfl
@[simp] theorem physWrite_mem (pa : Nat) (w : Word) : (physWrite pa w s).mem = memSet s.empty pa w s.mem := rfl
@[simp] theorem physWrite_space (pa : Nat) (w : Word) : (physWrite pa w s).space = s.space := rfl
@[simp] theorem physWrite_trace (pa : Nat) (w : Word) : (physWrite pa w s).trace = s.trace := rfl
@[simp] theorem physWrite_config (pa : Nat) (w : Word) : (physWrite pa w s).config = s.config := rfl
@[simp] theorem physWrite_boot (pa : Nat) (w : Word) : (physWrite pa w s).boot = s.boot := rfl

/-! ### afterTranslate -/

@[simp] theorem afterTranslate_regs (va : I32) : (afterTranslate va s).regs = s.regs := rfl
@[simp] theorem afterTranslate_pc (va : I32) : (afterTranslate va s).pc = s.pc := rfl
@[simp] theorem afterTranslate_pf (va : I32) : (afterTranslate va s).pf = s.pf := rfl
@[simp] theorem afterTranslate_status (va : I32) : (afterTranslate va s).status = s.status := rfl
@[simp] theorem afterTranslate_mem (va : I32) : (afterTranslate va s).mem = s.mem := rfl
@[simp] theorem afterTranslate_space (va : I32) : (afterTranslate va s).space = (s.space.translate s.config va).2 := rfl
@[simp] theorem afterTranslate_trace (va : I32) : (afterTranslate va s).trace = s.trace := rfl
@[simp] theorem afterTranslate_config (va : I32) : (afterTranslate va s).config = s.config := rfl
@[simp] theorem afterTranslate_boot (va : I32) : (afterTranslate va s).boot = s.boot := rfl

/-! ### Reading a register -/

@[simp] theorem readReg_writeReg_same (r : Reg) (v : I32) : readReg r (writeReg r v s) = v := by
  simp [readReg, writeReg]

theorem readReg_writeReg_ne (r q : Reg) (v : I32) (h : q ≠ r) : readReg q (writeReg r v s) = readReg q s := by
  have : r.val ≠ q.val := fun e => h (Fin.ext e.symm)
  simp [readReg, writeReg, this]

/-- A register reads the same in two states with the same register file. -/
theorem readReg_congr {s t : State} (h : t.regs = s.regs) (r : Reg) : readReg r t = readReg r s := by
  simp [readReg, h]

@[simp] theorem readReg_setPc (r : Reg) (target : I32) : readReg r (setPc target s) = readReg r s := rfl
@[simp] theorem readReg_advancePc (r : Reg) : readReg r (advancePc s) = readReg r s := rfl
@[simp] theorem readReg_emit (r : Reg) (e : Event) : readReg r (emit e s) = readReg r s := rfl
@[simp] theorem readReg_setPf (r : Reg) (f : PendingFault) : readReg r (setPf f s) = readReg r s := rfl
@[simp] theorem readReg_raise (r : Reg) (f : PendingFault) : readReg r (raise f s) = readReg r s := rfl
@[simp] theorem readReg_signalOverflow (r : Reg) : readReg r (signalOverflow s) = readReg r s := rfl
@[simp] theorem readReg_setStatus (r : Reg) (st : CpuStatus) : readReg r (setStatus st s) = readReg r s := rfl
@[simp] theorem readReg_interruptHandle (r : Reg) (f : PendingFault) : readReg r (interruptHandle f s) = readReg r s := rfl
@[simp] theorem readReg_physWrite (r : Reg) (pa : Nat) (w : Word) : readReg r (physWrite pa w s) = readReg r s := rfl
@[simp] theorem readReg_afterTranslate (r : Reg) (va : I32) : readReg r (afterTranslate va s) = readReg r s := rfl

/-! ### EmptyWord and physical reads -/

@[simp] theorem empty_writeReg (r : Reg) (v : I32) : (writeReg r v s).empty = s.empty := rfl
@[simp] theorem empty_setPc (target : I32) : (setPc target s).empty = s.empty := rfl
@[simp] theorem empty_advancePc : (advancePc s).empty = s.empty := rfl
@[simp] theorem empty_emit (e : Event) : (emit e s).empty = s.empty := rfl
@[simp] theorem empty_setPf (f : PendingFault) : (setPf f s).empty = s.empty := rfl
@[simp] theorem empty_raise (f : PendingFault) : (raise f s).empty = s.empty := rfl
@[simp] theorem empty_signalOverflow : (signalOverflow s).empty = s.empty := rfl
@[simp] theorem empty_setStatus (st : CpuStatus) : (setStatus st s).empty = s.empty := rfl
@[simp] theorem empty_interruptHandle (f : PendingFault) : (interruptHandle f s).empty = s.empty := rfl
@[simp] theorem empty_physWrite (pa : Nat) (w : Word) : (physWrite pa w s).empty = s.empty := rfl
@[simp] theorem empty_afterTranslate (va : I32) : (afterTranslate va s).empty = s.empty := rfl

/-- A slot reads the same in two states with the same memory and configuration. -/
theorem physRead_congr {s t : State} (hm : t.mem = s.mem) (hc : t.config = s.config) (pa : Nat) :
    physRead pa t = physRead pa s := by
  simp [physRead, State.empty, hm, hc]

@[simp] theorem physRead_writeReg (pa : Nat) (r : Reg) (v : I32) : physRead pa (writeReg r v s) = physRead pa s := rfl
@[simp] theorem physRead_setPc (pa : Nat) (target : I32) : physRead pa (setPc target s) = physRead pa s := rfl
@[simp] theorem physRead_advancePc (pa : Nat) : physRead pa (advancePc s) = physRead pa s := rfl
@[simp] theorem physRead_emit (pa : Nat) (e : Event) : physRead pa (emit e s) = physRead pa s := rfl
@[simp] theorem physRead_setPf (pa : Nat) (f : PendingFault) : physRead pa (setPf f s) = physRead pa s := rfl
@[simp] theorem physRead_raise (pa : Nat) (f : PendingFault) : physRead pa (raise f s) = physRead pa s := rfl
@[simp] theorem physRead_signalOverflow (pa : Nat) : physRead pa (signalOverflow s) = physRead pa s := rfl
@[simp] theorem physRead_setStatus (pa : Nat) (st : CpuStatus) : physRead pa (setStatus st s) = physRead pa s := rfl
@[simp] theorem physRead_interruptHandle (pa : Nat) (f : PendingFault) : physRead pa (interruptHandle f s) = physRead pa s := rfl
@[simp] theorem physRead_afterTranslate (pa : Nat) (va : I32) : physRead pa (afterTranslate va s) = physRead pa s := rfl

@[simp] theorem afterFetch_eq : afterFetch s = afterTranslate s.pc s := rfl

end Sys2Proof.Machine
end

