-- ==== Sys2Proof/Laws/Tables.lean ====
section
/-! SUPPORT. The sparse tables and physical memory: read after write, canonical form, and equality of equal memories. -/

namespace Sys2Proof.Machine

section Tables

variable {α : Type}

@[simp] theorem lookup_nil (k : Nat) : lookup k ([] : List (Nat × α)) = none := rfl

theorem lookup_cons (k j : Nat) (v : α) (rest : List (Nat × α)) :
    lookup k ((j, v) :: rest) = if k = j then some v else lookup k rest := rfl

@[simp] theorem lookup_assign_same (k : Nat) (v : α) (m : List (Nat × α)) :
    lookup k (assign k v m) = some v := by
  induction m with
  | nil => simp [assign, lookup]
  | cons e rest ih =>
    obtain ⟨j, u⟩ := e
    simp only [assign]
    split
    · simp [lookup]
    · split
      · simp [lookup]
      · rename_i h
        simp [lookup, h, ih]

theorem lookup_assign_ne (k q : Nat) (v : α) (m : List (Nat × α)) (h : q ≠ k) :
    lookup q (assign k v m) = lookup q m := by
  induction m with
  | nil => simp [assign, lookup, h]
  | cons e rest ih =>
    obtain ⟨j, u⟩ := e
    simp only [assign]
    split
    · simp [lookup, h]
    · split
      · rename_i hj
        subst hj
        simp [lookup, h]
      · simp [lookup, ih]

@[simp] theorem lookup_remove_same (k : Nat) (m : List (Nat × α)) : lookup k (remove k m) = none := by
  induction m with
  | nil => rfl
  | cons e rest ih =>
    obtain ⟨j, u⟩ := e
    simp only [remove]
    split
    · exact ih
    · rename_i h
      simp [lookup, h, ih]

theorem lookup_remove_ne (k q : Nat) (m : List (Nat × α)) (h : q ≠ k) :
    lookup q (remove k m) = lookup q m := by
  induction m with
  | nil => rfl
  | cons e rest ih =>
    obtain ⟨j, u⟩ := e
    simp only [remove]
    split
    · rename_i hj
      subst hj
      simp [lookup, h, ih]
    · simp [lookup, ih]

theorem mem_of_mem_assign {k : Nat} {v : α} {m : List (Nat × α)} {e : Nat × α} (h : e ∈ assign k v m) :
    e = (k, v) ∨ e ∈ m := by
  induction m with
  | nil => exact .inl (by simpa [assign] using h)
  | cons d rest ih =>
    obtain ⟨j, u⟩ := d
    simp only [assign] at h
    split at h
    · simpa using h
    · split at h
      · rcases List.mem_cons.mp h with h | h
        · exact .inl h
        · exact .inr (List.mem_cons_of_mem _ h)
      · rcases List.mem_cons.mp h with h | h
        · exact .inr (by simp [h])
        · exact (ih h).imp id (List.mem_cons_of_mem _)

theorem mem_of_mem_remove {k : Nat} {m : List (Nat × α)} {e : Nat × α} (h : e ∈ remove k m) : e ∈ m := by
  induction m with
  | nil => exact h
  | cons d rest ih =>
    obtain ⟨j, u⟩ := d
    simp only [remove] at h
    split at h
    · exact List.mem_cons_of_mem _ (ih h)
    · rcases List.mem_cons.mp h with h | h
      · exact h ▸ List.mem_cons_self
      · exact List.mem_cons_of_mem _ (ih h)

theorem keysRise_cons (j : Nat) (u : α) (rest : List (Nat × α)) :
    keysRise ((j, u) :: rest) = true ↔ (∀ e ∈ rest, j < e.1) ∧ keysRise rest = true := by
  simp [keysRise]

theorem keysRise_assign (k : Nat) (v : α) {m : List (Nat × α)} (h : keysRise m = true) :
    keysRise (assign k v m) = true := by
  induction m with
  | nil => simp [assign, keysRise]
  | cons d rest ih =>
    obtain ⟨j, u⟩ := d
    have hc := (keysRise_cons j u rest).mp h
    simp only [assign]
    split
    · rename_i hk
      refine (keysRise_cons k v _).mpr ⟨fun e he => ?_, h⟩
      rcases List.mem_cons.mp he with he | he
      · simpa [he] using hk
      · exact lt_trans hk (hc.1 e he)
    · split
      · rename_i hj
        subst hj
        exact (keysRise_cons k v rest).mpr hc
      · rename_i hk hj
        refine (keysRise_cons j u _).mpr ⟨fun e he => ?_, ih hc.2⟩
        rcases mem_of_mem_assign he with he | he
        · subst he
          show j < k
          omega
        · exact hc.1 e he

theorem keysRise_remove (k : Nat) {m : List (Nat × α)} (h : keysRise m = true) : keysRise (remove k m) = true := by
  induction m with
  | nil => exact h
  | cons d rest ih =>
    obtain ⟨j, u⟩ := d
    have hc := (keysRise_cons j u rest).mp h
    simp only [remove]
    split
    · exact ih hc.2
    · exact (keysRise_cons j u _).mpr ⟨fun e he => hc.1 e (mem_of_mem_remove he), ih hc.2⟩

/-- A fresh key makes the table one entry longer. -/
theorem length_assign_fresh (k : Nat) (v : α) {m : List (Nat × α)} (h : lookup k m = none) :
    (assign k v m).length = m.length + 1 := by
  induction m with
  | nil => rfl
  | cons d rest ih =>
    obtain ⟨j, u⟩ := d
    rw [lookup_cons] at h
    split at h
    · cases h
    · rename_i hj
      simp only [assign, hj, if_false]
      split
      · rfl
      · simp [ih h]

theorem mem_of_lookup {k : Nat} {v : α} {m : List (Nat × α)} (h : lookup k m = some v) : (k, v) ∈ m := by
  induction m with
  | nil => cases h
  | cons d rest ih =>
    obtain ⟨j, u⟩ := d
    rw [lookup_cons] at h
    split at h
    · rename_i hj
      cases h
      simp [hj]
    · exact List.mem_cons_of_mem _ (ih h)

theorem lookup_of_mem {k : Nat} {v : α} {m : List (Nat × α)} (hs : keysRise m = true) (h : (k, v) ∈ m) :
    lookup k m = some v := by
  induction m with
  | nil => cases h
  | cons d rest ih =>
    obtain ⟨j, u⟩ := d
    have hc := (keysRise_cons j u rest).mp hs
    rw [lookup_cons]
    rcases List.mem_cons.mp h with h | h
    · cases h
      simp
    · have : j < k := hc.1 _ h
      rw [if_neg (by omega)]
      exact ih hc.2 h

/-- A key below every listed key is not listed. -/
theorem lookup_none_of_lt {k : Nat} {m : List (Nat × α)} (h : ∀ e ∈ m, k < e.1) : lookup k m = none := by
  cases hl : lookup k m with
  | none => rfl
  | some v => exact absurd (h _ (mem_of_lookup hl)) (lt_irrefl k)

/-- Tables in rising order are equal when they list the same values. -/
theorem table_ext {m n : List (Nat × α)} (hm : keysRise m = true) (hn : keysRise n = true)
    (h : ∀ k, lookup k m = lookup k n) : m = n := by
  induction m generalizing n with
  | nil =>
    cases n with
    | nil => rfl
    | cons d rest => simpa [lookup] using h d.1
  | cons d rest ih =>
    cases n with
    | nil => simpa [lookup] using h d.1
    | cons d' rest' =>
      obtain ⟨j, u⟩ := d
      obtain ⟨j', u'⟩ := d'
      have hc := (keysRise_cons j u rest).mp hm
      have hc' := (keysRise_cons j' u' rest').mp hn
      have low : ∀ {k l : Nat} {w : α} {tl : List (Nat × α)}, (∀ e ∈ tl, l < e.1) → k < l →
          lookup k ((l, w) :: tl) = none := fun ht hk =>
        lookup_none_of_lt fun e he => by
          rcases List.mem_cons.mp he with he | he
          · subst he; exact hk
          · exact lt_trans hk (ht e he)
      have hj : j = j' := by
        rcases lt_trichotomy j j' with hl | hl | hl
        · have := h j
          rw [low hc'.1 hl] at this
          simp [lookup] at this
        · exact hl
        · have := h j'
          rw [low hc.1 hl] at this
          simp [lookup] at this
      subst hj
      have hu : u = u' := by simpa [lookup] using h j
      subst hu
      refine congrArg _ (ih hc.2 hc'.2 fun k => ?_)
      by_cases hk : k = j
      · subst hk
        rw [lookup_none_of_lt hc.1, lookup_none_of_lt hc'.1]
      · simpa [lookup, hk] using h k

end Tables

/-! ### Physical memory -/

@[simp] theorem memGet_memSet_same (e : Word) (pa : Nat) (w : Word) (m : Memory) :
    memGet e pa (memSet e pa w m) = w := by
  unfold memSet
  split
  · rename_i h
    simp [memGet, h]
  · simp [memGet]

theorem memGet_memSet_ne (e : Word) (pa qa : Nat) (w : Word) (m : Memory) (h : qa ≠ pa) :
    memGet e qa (memSet e pa w m) = memGet e qa m := by
  unfold memSet
  split
  · simp [memGet, lookup_remove_ne pa qa m h]
  · simp [memGet, lookup_assign_ne pa qa w m h]

theorem wf_iff (e : Word) (m : Memory) :
    Memory.wf e m = true ↔ keysRise m = true ∧ ∀ c ∈ m, c.2 ≠ e := by
  simp [Memory.wf, List.all_eq_true]

/-- Every write keeps memory in canonical form. -/
theorem wf_memSet (e : Word) (pa : Nat) (w : Word) {m : Memory} (h : Memory.wf e m = true) :
    Memory.wf e (memSet e pa w m) = true := by
  obtain ⟨hs, hn⟩ := (wf_iff e m).mp h
  unfold memSet
  split
  · exact (wf_iff e _).mpr ⟨keysRise_remove pa hs, fun c hc => hn c (mem_of_mem_remove hc)⟩
  · rename_i hw
    refine (wf_iff e _).mpr ⟨keysRise_assign pa w hs, fun c hc => ?_⟩
    rcases mem_of_mem_assign hc with rfl | hc
    · exact hw
    · exact hn c hc

theorem lookup_memSet {e : Word} {pa qa : Nat} {w v : Word} {m : Memory}
    (h : lookup qa (memSet e pa w m) = some v) : qa = pa ∨ lookup qa m = some v := by
  by_cases hq : qa = pa
  · exact .inl hq
  · unfold memSet at h
    split at h
    · exact .inr (lookup_remove_ne pa qa m hq ▸ h)
    · exact .inr (lookup_assign_ne pa qa w m hq ▸ h)

/-- Equal memories are equal data: two memories in canonical form that read the same are the same list. -/
theorem memory_ext {e : Word} {m n : Memory} (hm : Memory.wf e m = true) (hn : Memory.wf e n = true)
    (h : ∀ pa, memGet e pa m = memGet e pa n) : m = n := by
  obtain ⟨hms, hmn⟩ := (wf_iff e m).mp hm
  obtain ⟨hns, hnn⟩ := (wf_iff e n).mp hn
  refine table_ext hms hns fun pa => ?_
  have := h pa
  unfold memGet at this
  cases h1 : lookup pa m with
  | none =>
    cases h2 : lookup pa n with
    | none => rfl
    | some v => exact absurd (by simpa [h1, h2] using this.symm) (hnn _ (mem_of_lookup h2))
  | some u =>
    cases h2 : lookup pa n with
    | none => exact absurd (by simpa [h1, h2] using this) (hmn _ (mem_of_lookup h1))
    | some v => simpa [h1, h2] using this

@[simp] theorem physRead_physWrite_same (pa : Nat) (w : Word) (s : State) :
    physRead pa (physWrite pa w s) = w := by
  simp [physRead, physWrite, State.empty]

theorem physRead_physWrite_ne (pa qa : Nat) (w : Word) (s : State) (h : qa ≠ pa) :
    physRead qa (physWrite pa w s) = physRead qa s := by
  simpa [physRead, physWrite, State.empty] using memGet_memSet_ne _ pa qa w s.mem h

end Sys2Proof.Machine
end

