-- ==== Sys2Proof/Laws/Space.lean ====
section
/-! SUPPORT. The allocator and the translator: what each can do, said once, and what follows: a translation keeps the
address space sound, changes no existing binding, and repeats. -/

namespace Sys2Proof.Machine

/-! ### The allocator -/

/-- The scan answers the first free frame of its range. -/
theorem firstFree_eq_some (occ : Occupancy) (f n g : Nat) :
    firstFree occ f n = some g ↔ f ≤ g ∧ g < f + n ∧ g ∉ occ ∧ ∀ h, f ≤ h → h < g → h ∈ occ := by
  induction n generalizing f with
  | zero => simp [firstFree]; omega
  | succ n ih =>
    simp only [firstFree]
    split
    · rename_i hf
      rw [ih]
      constructor
      · rintro ⟨h1, h2, h3, h4⟩
        refine ⟨by omega, by omega, h3, fun h hl hg => ?_⟩
        rcases Nat.eq_or_lt_of_le hl with rfl | hl
        · exact hf
        · exact h4 h hl hg
      · rintro ⟨h1, h2, h3, h4⟩
        have : f ≠ g := by rintro rfl; exact h3 hf
        exact ⟨by omega, by omega, h3, fun h hl hg => h4 h (by omega) hg⟩
    · rename_i hf
      constructor
      · rintro h
        cases h
        exact ⟨le_refl _, by omega, hf, fun h hl hg => by omega⟩
      · rintro ⟨h1, h2, h3, h4⟩
        rcases Nat.eq_or_lt_of_le h1 with rfl | hl
        · rfl
        · exact absurd (h4 f (le_refl _) hl) hf

/-- The scan answers nothing exactly when its whole range is occupied. -/
theorem firstFree_eq_none (occ : Occupancy) (f n : Nat) :
    firstFree occ f n = none ↔ ∀ h, f ≤ h → h < f + n → h ∈ occ := by
  induction n generalizing f with
  | zero => simp [firstFree]; omega
  | succ n ih =>
    simp only [firstFree]
    split
    · rename_i hf
      rw [ih]
      constructor
      · intro h g hl hg
        rcases Nat.eq_or_lt_of_le hl with rfl | hl
        · exact hf
        · exact h g hl (by omega)
      · exact fun h g hl hg => h g (by omega) (by omega)
    · rename_i hf
      simp only [reduceCtorEq, false_iff, not_forall]
      exact ⟨f, le_refl _, by omega, hf⟩

@[simp] theorem mem_occupy (f g : Nat) (occ : Occupancy) : g ∈ occupy f occ ↔ g = f ∨ g ∈ occ := by
  induction occ with
  | nil => simp [occupy]
  | cons h rest ih =>
    simp only [occupy]
    split
    · simp
    · split
      · rename_i he
        subst he
        simp
      · simp only [List.mem_cons, ih]
        tauto

/-- Occupying a frame above all occupied ones appends it. -/
theorem occupy_above {f : Nat} {occ : Occupancy} (h : ∀ g ∈ occ, g < f) : occupy f occ = occ ++ [f] := by
  induction occ with
  | nil => rfl
  | cons g rest ih =>
    have hg := h g List.mem_cons_self
    simp only [occupy]
    rw [if_neg (by omega), if_neg (by omega), ih fun x hx => h x (List.mem_cons_of_mem _ hx)]
    rfl

/-- Occupying the next frame of a prefix gives the next prefix (20_memory.md R45). -/
theorem occupy_range (n : Nat) : occupy n (List.range n) = List.range (n + 1) := by
  rw [occupy_above fun g hg => List.mem_range.mp hg, List.range_succ]

/-- The first free frame above an occupied prefix is its length. -/
theorem firstFree_range (k n : Nat) : firstFree (List.range k) 0 n = if k < n then some k else none := by
  split
  · exact (firstFree_eq_some _ _ _ _).mpr ⟨by omega, by omega, by simp, fun h _ hk => by simpa using hk⟩
  · exact (firstFree_eq_none _ _ _).mpr fun h _ hk => by simp; omega

/-! ### The translator -/

/-- `va` lies on a page of the address space (20_memory.md R39 step 2). -/
def PageInRange (c : Configuration) (va : I32) : Prop :=
  0 ≤ pageOf c va ∧ pageOf c va < (c.pageCount : Int)

/-- Everything a translation can do (20_memory.md R39): it is out of range, or finds its page mapped, or binds the
first free frame to it, or finds no free frame. -/
theorem translate_cases (c : Configuration) (va : I32) (a : AddressSpace) :
    (¬ PageInRange c va ∧ a.translate c va = (none, a)) ∨
    (PageInRange c va ∧ ∃ f, frameOf (pageOf c va).toNat a.pageTable = some f ∧
      a.translate c va = (some (f * c.pageSize + offsetOf c va), a)) ∨
    (PageInRange c va ∧ frameOf (pageOf c va).toNat a.pageTable = none ∧
      ∃ f, firstFree a.occupied 0 c.frameCount = some f ∧
        a.translate c va = (some (f * c.pageSize + offsetOf c va),
          ⟨assign (pageOf c va).toNat f a.pageTable, occupy f a.occupied⟩)) ∨
    (PageInRange c va ∧ frameOf (pageOf c va).toNat a.pageTable = none ∧
      firstFree a.occupied 0 c.frameCount = none ∧ a.translate c va = (none, a)) := by
  unfold AddressSpace.translate PageInRange
  by_cases hr : pageOf c va < 0 ∨ (c.pageCount : Int) ≤ pageOf c va
  · exact .inl ⟨by omega, by rw [if_pos hr]⟩
  · rw [if_neg hr]
    have hp : 0 ≤ pageOf c va ∧ pageOf c va < (c.pageCount : Int) := by omega
    cases hf : frameOf (pageOf c va).toNat a.pageTable with
    | some f => exact .inr (.inl ⟨hp, f, rfl, rfl⟩)
    | none =>
      cases hff : firstFree a.occupied 0 c.frameCount with
      | some f => exact .inr (.inr (.inl ⟨hp, rfl, f, rfl, by simp [allocate, hff]⟩))
      | none => exact .inr (.inr (.inr ⟨hp, rfl, rfl, by simp [allocate, hff]⟩))

/-- A failed translation changes nothing (20_memory.md R40, R42). -/
theorem translate_none {c : Configuration} {va : I32} {a : AddressSpace} (h : (a.translate c va).1 = none) :
    (a.translate c va).2 = a := by
  rcases translate_cases c va a with ⟨_, e⟩ | ⟨_, f, _, e⟩ | ⟨_, _, f, _, e⟩ | ⟨_, _, _, e⟩ <;>
    simp_all

/-- No existing binding changes (20_memory.md R43(d)). -/
theorem translate_keeps_binding (c : Configuration) (va : I32) (a : AddressSpace) {page f : Nat}
    (h : frameOf page a.pageTable = some f) : frameOf page (a.translate c va).2.pageTable = some f := by
  rcases translate_cases c va a with ⟨_, e⟩ | ⟨_, g, _, e⟩ | ⟨_, hn, g, _, e⟩ | ⟨_, _, _, e⟩
  · rw [e]; exact h
  · rw [e]; exact h
  · rw [e]
    have : page ≠ (pageOf c va).toNat := fun hp => by rw [hp, hn] at h; cases h
    exact (lookup_assign_ne _ _ _ _ this).trans h
  · rw [e]; exact h

/-- No occupied frame is freed (20_memory.md R43(d)). -/
theorem translate_keeps_occupied (c : Configuration) (va : I32) (a : AddressSpace) {f : Nat}
    (h : f ∈ a.occupied) : f ∈ (a.translate c va).2.occupied := by
  rcases translate_cases c va a with ⟨_, e⟩ | ⟨_, g, _, e⟩ | ⟨_, hn, g, _, e⟩ | ⟨_, _, _, e⟩ <;>
    simp [e, h]

/-- A mapped page in range translates to its frame and changes nothing (20_memory.md R40). -/
theorem translate_mapped {c : Configuration} {va : I32} {a : AddressSpace} {f : Nat} (hr : PageInRange c va)
    (h : frameOf (pageOf c va).toNat a.pageTable = some f) :
    a.translate c va = (some (f * c.pageSize + offsetOf c va), a) := by
  rcases translate_cases c va a with ⟨hn, _⟩ | ⟨_, g, hg, e⟩ | ⟨_, hn, _⟩ | ⟨_, hn, _⟩
  · exact absurd hr hn
  · rw [h] at hg
    cases hg
    exact e
  · rw [h] at hn; cases hn
  · rw [h] at hn; cases hn

/-- After a success the page is in range and mapped to the frame of the answer. -/
theorem translate_some {c : Configuration} {va : I32} {a : AddressSpace} {pa : Nat}
    (h : (a.translate c va).1 = some pa) :
    PageInRange c va ∧ ∃ f, frameOf (pageOf c va).toNat (a.translate c va).2.pageTable = some f ∧
      pa = f * c.pageSize + offsetOf c va := by
  rcases translate_cases c va a with ⟨_, e⟩ | ⟨hr, g, hg, e⟩ | ⟨hr, hn, g, _, e⟩ | ⟨_, _, _, e⟩
  · simp [e] at h
  · rw [e] at h ⊢
    exact ⟨hr, g, hg, by simpa using h.symm⟩
  · rw [e] at h ⊢
    exact ⟨hr, g, by simp [frameOf], by simpa using h.symm⟩
  · simp [e] at h

/-- Once answered, an address translates to the same answer in every address space that keeps its bindings, and changes
nothing there (20_memory.md R44). -/
theorem translate_again {c : Configuration} {va : I32} {a b : AddressSpace} {pa : Nat}
    (h : (a.translate c va).1 = some pa)
    (hb : ∀ page f, frameOf page (a.translate c va).2.pageTable = some f → frameOf page b.pageTable = some f) :
    b.translate c va = (some pa, b) := by
  obtain ⟨hr, f, hf, rfl⟩ := translate_some h
  exact translate_mapped hr (hb _ _ hf)

/-! ### The configuration's arithmetic -/

theorem accepted_iff (c : Configuration) : c.accepted = true ↔
    0 < c.virtualSize ∧ 0 < c.physicalSize ∧ 0 < c.pageSize ∧
    c.virtualSize % c.pageSize = 0 ∧ c.physicalSize % c.pageSize = 0 ∧
    c.virtualSize ≤ Config.maxSize ∧ c.physicalSize ≤ Config.maxSize ∧ c.pageSize ≤ Config.maxSize := by
  simp [Configuration.accepted]

theorem pageCount_mul {c : Configuration} (h : c.accepted = true) : c.pageCount * c.pageSize = c.virtualSize :=
  Nat.div_mul_cancel (Nat.dvd_of_mod_eq_zero ((accepted_iff c).mp h).2.2.2.1)

theorem frameCount_mul {c : Configuration} (h : c.accepted = true) : c.frameCount * c.pageSize = c.physicalSize :=
  Nat.div_mul_cancel (Nat.dvd_of_mod_eq_zero ((accepted_iff c).mp h).2.2.2.2.1)

/-- Under floor division an address is on a page of the address space exactly when 0 <= va < virtualSize
(20_memory.md R39, R40). -/
theorem pageInRange_iff {c : Configuration} (h : c.accepted = true) (va : I32) :
    PageInRange c va ↔ 0 ≤ va.toInt ∧ va.toInt < (c.virtualSize : Int) := by
  have hp : (0 : Int) < c.pageSize := by exact_mod_cast ((accepted_iff c).mp h).2.2.1
  have hm : (c.pageCount : Int) * c.pageSize = c.virtualSize := by exact_mod_cast pageCount_mul h
  unfold PageInRange pageOf
  rw [Int.le_ediv_iff_mul_le hp, Int.ediv_lt_iff_lt_mul hp, hm]
  simp

theorem offsetOf_lt {c : Configuration} (h : c.accepted = true) (va : I32) : offsetOf c va < c.pageSize := by
  have hp : (0 : Int) < c.pageSize := by exact_mod_cast ((accepted_iff c).mp h).2.2.1
  have h1 := Int.emod_nonneg va.toInt (ne_of_gt hp)
  have h2 := Int.emod_lt_of_pos va.toInt hp
  unfold offsetOf
  omega

/-- A slot of a frame that exists is a physical address that exists (20_memory.md R38). -/
theorem slot_lt {c : Configuration} (h : c.accepted = true) {f : Nat} (hf : f < c.frameCount) (va : I32) :
    f * c.pageSize + offsetOf c va < c.physicalSize := by
  have ho := offsetOf_lt h va
  have hm := frameCount_mul h
  have : (f + 1) * c.pageSize ≤ c.frameCount * c.pageSize := Nat.mul_le_mul_right _ hf
  rw [Nat.add_mul, Nat.one_mul] at this
  omega

/-! ### Soundness of the address space -/

theorem frame_lt {c : Configuration} {a : AddressSpace} (h : SpaceInv c a) {page f : Nat}
    (hf : frameOf page a.pageTable = some f) : f < c.frameCount := by
  have ho : f ∈ a.occupied := (h.occupied_iff_bound f).mpr ⟨page, hf⟩
  rw [h.occupied_prefix] at ho
  exact lt_of_lt_of_le (List.mem_range.mp ho) h.within_frames

/-- A frame is free exactly when fewer pages than frames are mapped, and the first one is then their number
(20_memory.md R45). -/
theorem firstFree_of_inv {c : Configuration} {a : AddressSpace} (h : SpaceInv c a) :
    firstFree a.occupied 0 c.frameCount =
      if a.pageTable.length < c.frameCount then some a.pageTable.length else none := by
  rw [h.occupied_prefix, firstFree_range]

/-- Every translation keeps the address space sound (20_memory.md R43). -/
theorem translate_inv {c : Configuration} {a : AddressSpace} (h : SpaceInv c a) (va : I32) :
    SpaceInv c (a.translate c va).2 := by
  rcases translate_cases c va a with ⟨_, e⟩ | ⟨_, f, _, e⟩ | ⟨hr, hn, f, hf, e⟩ | ⟨_, _, _, e⟩
  · rw [e]; exact h
  · rw [e]; exact h
  · rw [e]
    rw [firstFree_of_inv h] at hf
    split at hf
    case isFalse => cases hf
    rename_i hlt
    cases hf
    have hlen : (assign (pageOf c va).toNat a.pageTable.length a.pageTable).length = a.pageTable.length + 1 :=
      length_assign_fresh _ _ hn
    have hfresh : ∀ page, frameOf page a.pageTable ≠ some a.pageTable.length := fun page hp => by
      have := (h.occupied_iff_bound _).mpr ⟨page, hp⟩
      rw [h.occupied_prefix] at this
      simp at this
    have hsplit : ∀ page g,
        frameOf page (assign (pageOf c va).toNat a.pageTable.length a.pageTable) = some g →
        (page = (pageOf c va).toNat ∧ g = a.pageTable.length) ∨
          (page ≠ (pageOf c va).toNat ∧ frameOf page a.pageTable = some g) := fun page g hg => by
      unfold frameOf at hg ⊢
      by_cases hp : page = (pageOf c va).toNat
      · subst hp
        rw [lookup_assign_same] at hg
        exact .inl ⟨rfl, by simpa using hg.symm⟩
      · rw [lookup_assign_ne _ _ _ _ hp] at hg
        exact .inr ⟨hp, hg⟩
    refine ⟨keysRise_assign _ _ h.pages_rise, ?_, ?_, ?_, ?_, ?_⟩
    · intro page g hg
      rcases hsplit page g hg with ⟨rfl, _⟩ | ⟨_, hg⟩
      · obtain ⟨h0, h1⟩ := hr
        omega
      · exact h.pages_in_range page g hg
    · intro page page' g hg hg'
      rcases hsplit page g hg with ⟨rfl, rfl⟩ | ⟨_, hg⟩ <;> rcases hsplit page' _ hg' with ⟨rfl, hl⟩ | ⟨_, hg'⟩
      · rfl
      · exact absurd hg' (hfresh _)
      · exact absurd (hl ▸ hg) (hfresh _)
      · exact h.frames_distinct _ _ _ hg hg'
    · intro g
      simp only [mem_occupy, h.occupied_iff_bound]
      constructor
      · rintro (rfl | ⟨page, hp⟩)
        · exact ⟨_, lookup_assign_same _ _ _⟩
        · refine ⟨page, (lookup_assign_ne _ _ _ _ ?_).trans hp⟩
          rintro rfl
          rw [hn] at hp
          cases hp
      · rintro ⟨page, hp⟩
        rcases hsplit page g hp with ⟨_, rfl⟩ | ⟨_, hp⟩
        · exact .inl rfl
        · exact .inr ⟨page, hp⟩
    · show occupy a.pageTable.length a.occupied = _
      rw [hlen, h.occupied_prefix, occupy_range]
    · show (assign _ _ _).length ≤ _
      omega
  · rw [e]; exact h

/-- The physical address of a translation exists (20_memory.md R38). -/
theorem translate_lt {c : Configuration} {a : AddressSpace} (hc : c.accepted = true) (h : SpaceInv c a) {va : I32}
    {pa : Nat} (hp : (a.translate c va).1 = some pa) : pa < c.physicalSize := by
  obtain ⟨_, f, hf, rfl⟩ := translate_some hp
  exact slot_lt hc (frame_lt (translate_inv h va) hf) va

/-- A sound address space with nothing mapped. -/
theorem spaceInv_empty (c : Configuration) : SpaceInv c ⟨[], []⟩ where
  pages_rise := rfl
  pages_in_range := fun _ _ h => by cases h
  frames_distinct := fun _ _ _ h => by cases h
  occupied_iff_bound := fun f => by simp [frameOf]
  occupied_prefix := rfl
  within_frames := Nat.zero_le _

/-! ### On the whole state -/

/-- A translation succeeds exactly when the address is valid and its page can be reached (20_memory.md R40). -/
theorem translated_isSome_iff {s : State} (hc : s.config.accepted = true) (va : I32) :
    (translated va s).isSome ↔ Accessible va s := by
  unfold translated Accessible PageReachable
  rw [← and_assoc, ← pageInRange_iff hc]
  have hfree : (∃ f, f < s.config.frameCount ∧ f ∉ s.space.occupied) ↔
      firstFree s.space.occupied 0 s.config.frameCount ≠ none := by
    rw [Ne, firstFree_eq_none]
    simp
  rw [hfree]
  rcases translate_cases s.config va s.space with ⟨hn, e⟩ | ⟨hr, f, hf, e⟩ | ⟨hr, hn, f, hf, e⟩ | ⟨hr, hn, hf, e⟩
  · simp [e, hn]
  · simp [e, hr, hf]
  · simp [e, hr, hn, hf]
  · simp [e, hr, hn, hf]

theorem translated_of_accessible {s : State} (hc : s.config.accepted = true) {va : I32} (h : Accessible va s) :
    ∃ pa, translated va s = some pa :=
  Option.isSome_iff_exists.mp ((translated_isSome_iff hc va).mpr h)

/-- A failed translation leaves the state as it was (20_memory.md R42). -/
theorem afterTranslate_of_none {s : State} {va : I32} (h : translated va s = none) : afterTranslate va s = s := by
  unfold afterTranslate
  rw [translate_none h]

/-- What a virtual address reads as after its own successful translation. -/
theorem peek_of_translated {s : State} {va : I32} {pa : Nat} (h : translated va s = some pa) :
    peek va (afterTranslate va s) = some (physRead pa (afterTranslate va s)) := by
  obtain ⟨hr, f, hf, rfl⟩ := translate_some h
  have hf' : frameOf (pageOf s.config va).toNat (afterTranslate va s).space.pageTable = some f := hf
  unfold PageInRange at hr
  unfold peek
  rw [if_neg (by simp only [afterTranslate_config]; omega)]
  simp only [afterTranslate_config, hf', Option.map_some]

end Sys2Proof.Machine
end

