-- ==== Sys2Proof/Laws/Exec.lean ====
section
/-! SUPPORT. What one instruction and one step can do, said once: every whole-machine property is a case analysis of
`exec_can` and `step_cases`. -/

namespace Sys2Proof.Machine

/-- The run state is untouched. -/
def RunSame (s t : State) : Prop :=
  t.pf = s.pf ∧ t.status = s.status ∧ t.trace = s.trace

/-- A fault was recorded and nothing logged. -/
def RunFault (s t : State) : Prop :=
  t.pf ≠ .none ∧ t.pf ≠ .stop ∧ t.status = s.status ∧ t.trace = s.trace

/-- An event that ends no run was logged. -/
def RunEvent (s t : State) : Prop :=
  t.pf = s.pf ∧ t.status = s.status ∧ ∃ e, e.terminal = false ∧ t.trace = s.trace ++ [e]

/-- Everything an instruction can do to each part of the state. -/
structure ExecCan (i : Instr) (s t : State) : Prop where
  config : t.config = s.config
  boot : t.boot = s.boot
  regs : t.regs = s.regs ∨ ∃ ra v, destReg i = some ra ∧ t.regs = s.regs.set ra v
  space : t.space = s.space ∨ ∃ va, t.space = (s.space.translate s.config va).2
  mem : t.mem = s.mem ∨ isStore i = true ∧ ∃ va pa v,
    translated va s = some pa ∧ t.mem = memSet s.empty pa (dataWord v) s.mem
  run : RunSame s t ∨ RunFault s t ∨ (i = .syscall ∧ RunEvent s t) ∨
    (i = .stop ∧ t.pf = s.pf ∧ t.status = .halted ∧ t.pc = s.pc ∧ t.trace = s.trace ++ [.stopNote])

/-! ### The shared operations -/

theorem withTranslated_some {va : I32} {s : State} {pa : Nat} (h : translated va s = some pa)
    (rest : Nat → State → State) : withTranslated va s rest = rest pa (afterTranslate va s) := by
  simp [withTranslated, h]

/-- A failed access records InvalidAddress and leaves everything else as it was (40_data_transfer.md R73). -/
theorem withTranslated_none {va : I32} {s : State} (h : translated va s = none) (rest : Nat → State → State) :
    withTranslated va s rest = raise .invalidAddress s := by
  simp [withTranslated, h, afterTranslate_of_none h]

/-- The two outcomes of an access through the translator. -/
theorem withTranslated_cases (va : I32) (s : State) (rest : Nat → State → State) :
    (∃ pa, translated va s = some pa ∧ withTranslated va s rest = rest pa (afterTranslate va s)) ∨
      (translated va s = none ∧ withTranslated va s rest = raise .invalidAddress s) := by
  cases h : translated va s with
  | some pa => exact .inl ⟨pa, rfl, withTranslated_some h rest⟩
  | none => exact .inr ⟨rfl, withTranslated_none h rest⟩

theorem raise_can {i : Instr} {f : PendingFault} (s : State) (h1 : f ≠ .none) (h2 : f ≠ .stop) :
    ExecCan i s (raise f s) where
  config := rfl
  boot := rfl
  regs := .inl rfl
  space := .inl rfl
  mem := .inl rfl
  run := .inr (.inl ⟨h1, h2, rfl, rfl⟩)

/-- A rewrite of nothing but the pc. -/
theorem setPc_can (i : Instr) (v : I32) (s : State) : ExecCan i s (setPc v s) where
  config := rfl
  boot := rfl
  regs := .inl rfl
  space := .inl rfl
  mem := .inl rfl
  run := .inl ⟨rfl, rfl, rfl⟩

theorem jumpIf_eq_setPc (b : Bool) (v : I32) (s : State) :
    jumpIf b v s = setPc (if b = true then v else s.pc + 1) s := by
  unfold jumpIf
  split <;> rfl

theorem jumpIf_can (i : Instr) (b : Bool) (v : I32) (s : State) : ExecCan i s (jumpIf b v s) := by
  unfold jumpIf
  split <;> exact setPc_can i _ s

theorem jumpThrough_can (i : Instr) (va : I32) (s : State) : ExecCan i s (jumpThrough va s) := by
  unfold jumpThrough withPayload
  rcases withTranslated_cases va s _ with ⟨pa, _, e⟩ | ⟨_, e⟩
  · rw [e]
    exact ⟨rfl, rfl, .inl rfl, .inr ⟨va, rfl⟩, .inl rfl, .inl ⟨rfl, rfl, rfl⟩⟩
  · rw [e]
    exact raise_can s (by decide) (by decide)

theorem jumpThroughIf_can (i : Instr) (b : Bool) (va : I32) (s : State) : ExecCan i s (jumpThroughIf b va s) := by
  unfold jumpThroughIf
  split
  · exact jumpThrough_can i va s
  · exact setPc_can i _ s

theorem loadFrom_can {i : Instr} {ra : Reg} (h : destReg i = some ra) (va : I32) (s : State) :
    ExecCan i s (loadFrom ra va s) := by
  unfold loadFrom withPayload
  rcases withTranslated_cases va s _ with ⟨pa, _, e⟩ | ⟨_, e⟩
  · rw [e]
    exact ⟨rfl, rfl, .inr ⟨ra, _, h, rfl⟩, .inr ⟨va, rfl⟩, .inl rfl, .inl ⟨rfl, rfl, rfl⟩⟩
  · rw [e]
    exact raise_can s (by decide) (by decide)

theorem storeTo_can {i : Instr} (h : isStore i = true) (va v : I32) (s : State) : ExecCan i s (storeTo va v s) := by
  unfold storeTo
  rcases withTranslated_cases va s _ with ⟨pa, hp, e⟩ | ⟨_, e⟩
  · rw [e]
    exact ⟨rfl, rfl, .inl rfl, .inr ⟨va, rfl⟩, .inr ⟨h, va, pa, v, hp, rfl⟩, .inl ⟨rfl, rfl, rfl⟩⟩
  · rw [e]
    exact raise_can s (by decide) (by decide)

theorem writeReg_can {i : Instr} {ra : Reg} (h : destReg i = some ra) (v : I32) (s : State) :
    ExecCan i s (advancePc (writeReg ra v s)) :=
  ⟨rfl, rfl, .inr ⟨ra, v, h, rfl⟩, .inl rfl, .inl rfl, .inl ⟨rfl, rfl, rfl⟩⟩

theorem writeResult_can {i : Instr} {ra : Reg} (h : destReg i = some ra) (n : Int) (s : State) :
    ExecCan i s (writeResult ra n s) := by
  unfold writeResult overflowCheck
  split
  · exact writeReg_can h _ s
  · exact ⟨rfl, rfl, .inr ⟨ra, _, h, rfl⟩, .inl rfl, .inl rfl,
      .inr (.inl ⟨by simp, by simp, rfl, rfl⟩)⟩

theorem syscall_can (s : State) : ExecCan .syscall s (advancePc (syscallHandle s)) := by
  unfold syscallHandle
  split
  · exact setPc_can _ _ s
  · split
    · unfold sysWrite
      cases h : translated (readReg Config.argReg s) s with
      | some pa =>
        exact ⟨rfl, rfl, .inl rfl, .inr ⟨_, rfl⟩, .inl rfl, .inr (.inr (.inl ⟨rfl, rfl, rfl, _, rfl, rfl⟩))⟩
      | none =>
        exact ⟨rfl, rfl, .inl rfl, .inr ⟨_, rfl⟩, .inl rfl, .inr (.inl ⟨by simp, by simp, rfl, rfl⟩)⟩
    · exact ⟨rfl, rfl, .inl rfl, .inl rfl, .inl rfl, .inr (.inr (.inl ⟨rfl, rfl, rfl, _, rfl, rfl⟩))⟩

/-! ### One instruction -/

/-- Everything an instruction can do. -/
theorem exec_can {i : Instr} {s t : State} (h : exec i s = .next t) : ExecCan i s t := by
  cases i with
  | empty => cases h; exact setPc_can _ _ s
  | data => cases h; exact raise_can s (by decide) (by decide)
  | ldi ra p => cases h; exact writeReg_can rfl _ s
  | ldd ra p => cases h; exact loadFrom_can rfl _ s
  | ldx ra rb => cases h; exact loadFrom_can rfl _ s
  | std ra p => cases h; exact storeTo_can rfl _ _ s
  | stx ra rb => cases h; exact storeTo_can rfl _ _ s
  | move ra rb => cases h; exact writeReg_can rfl _ s
  | add ra rb => cases h; exact writeResult_can rfl _ s
  | sub ra rb => cases h; exact writeResult_can rfl _ s
  | mult ra rb => cases h; exact writeResult_can rfl _ s
  | addi ra p => cases h; exact writeResult_can rfl _ s
  | subi ra p => cases h; exact writeResult_can rfl _ s
  | jmp p => cases h; exact setPc_can _ _ s
  | jmpim p => cases h; exact jumpThrough_can _ _ s
  | jmpig ra rb => cases h; exact jumpIf_can _ _ _ s
  | jmpil ra rb => cases h; exact jumpIf_can _ _ _ s
  | jmpie ra rb => cases h; exact jumpIf_can _ _ _ s
  | jmpigk rb p => cases h; exact jumpIf_can _ _ _ s
  | jmpilk rb p => cases h; exact jumpIf_can _ _ _ s
  | jmpiek rb p => cases h; exact jumpIf_can _ _ _ s
  | jmpigm rb p => cases h; exact jumpThroughIf_can _ _ _ s
  | jmpilm rb p => cases h; exact jumpThroughIf_can _ _ _ s
  | jmpiem rb p => cases h; exact jumpThroughIf_can _ _ _ s
  | jmpigt ra rb p => cases h; exact jumpIf_can _ _ _ s
  | syscall => cases h; exact syscall_can s
  | stop => cases h; exact ⟨rfl, rfl, .inl rfl, .inl rfl, .inl rfl, .inr (.inr (.inr ⟨rfl, rfl, rfl, rfl, rfl⟩))⟩

/-! ### One cycle -/

theorem endOfCycle_none {s : State} (h : s.pf = .none) : endOfCycle s = s := by
  simp [endOfCycle, h]

/-- A pending fault is logged at the current pc and halts the machine, in the same cycle (60_exceptions.md R114). -/
theorem endOfCycle_fault {s : State} (h : s.pf ≠ .none) :
    endOfCycle s = { s with trace := s.trace ++ [.interrupt s.pf s.pc], status := .halted } := by
  simp [endOfCycle, h, setStatus, interruptHandle, emit]

/-- The three ways a cycle can go before its end-of-cycle check. -/
inductive CycleBody (s u : State) : Prop where
  | fetchFault (h : fetched s = none) (e : u = raise .invalidAddress s)
  | illegal (w : Word) (why : DecodeReject) (h : fetched s = some w) (d : decode w = .rejected why)
      (e : u = raise .invalidInstruction (afterFetch s))
  | executed (w : Word) (i : Instr) (h : fetched s = some w) (d : decode w = .instr i)
      (e : exec i (afterFetch s) = .next u)

theorem fetched_eq_none {s : State} : fetched s = none ↔ translated s.pc s = none := by
  simp [fetched]

theorem finishCycle_next {o : Host.Outcome State Fault Refusal} {t : State} (h : finishCycle o = .next t) :
    ∃ u, o = .next u ∧ t = endOfCycle u := by
  cases o with
  | next u => exact ⟨u, rfl, by cases h; rfl⟩
  | fault r => cases h
  | refused r => cases h

/-- Everything a step can do: nothing, or one cycle body and the end-of-cycle check (30_encoding.md R65). -/
theorem step_cases {s t : State} (h : step s = .next t) :
    (cpuRuns s = false ∧ t = s) ∨ (cpuRuns s = true ∧ ∃ u, CycleBody s u ∧ t = endOfCycle u) := by
  unfold step at h
  split at h
  · rename_i hr
    refine .inr ⟨hr, ?_⟩
    unfold cycle at h
    cases hf : fetched s with
    | none =>
      rw [hf] at h
      cases h
      refine ⟨_, .fetchFault hf ?_, rfl⟩
      rw [afterFetch_eq, afterTranslate_of_none (fetched_eq_none.mp hf)]
    | some w =>
      rw [hf] at h
      cases hd : decode w with
      | rejected why =>
        simp only [hd] at h
        cases h
        exact ⟨_, .illegal w why hf hd rfl, rfl⟩
      | instr i =>
        simp only [hd] at h
        obtain ⟨u, hu, e⟩ := finishCycle_next h
        exact ⟨u, .executed w i hf hd hu, e⟩
  · rename_i hr
    cases h
    exact .inl ⟨by simpa using hr, rfl⟩

/-- The executing instruction is the decoded Word of the fetch, in a running machine. -/
theorem executing_eq_some {s : State} {i : Instr} :
    executing s = some i ↔ cpuRuns s = true ∧ ∃ w, fetched s = some w ∧ decode w = .instr i := by
  unfold executing
  constructor
  · intro h
    split at h
    · rename_i hr
      refine ⟨hr, ?_⟩
      cases hf : fetched s with
      | none => simp [hf] at h
      | some w =>
        simp only [hf] at h
        refine ⟨w, rfl, ?_⟩
        cases hd : decode w with
        | rejected why => simp [hd] at h
        | instr j =>
          simp only [hd, Option.some.injEq] at h
          rw [h]
    · cases h
  · rintro ⟨hr, w, hf, hd⟩
    simp [hr, hf, hd]

/-- A step that executes an instruction is that instruction and the end-of-cycle check. -/
theorem step_executing {s : State} {i : Instr} (h : executing s = some i) :
    step s = finishCycle (exec i (afterTranslate s.pc s)) := by
  obtain ⟨hr, w, hf, hd⟩ := executing_eq_some.mp h
  simp [step, hr, cycle, hf, hd]

theorem cpuRuns_iff (s : State) : cpuRuns s = true ↔ s.boot = .started ∧ s.status = .running := by
  simp [cpuRuns]

/-! ### Arithmetic -/

/-- The signed value of `wrap32 n` is the representative of `n` modulo 2^32 in Int32 (00_scope.md R11). -/
@[simp] theorem wrap32_toInt (n : Int) : (wrap32 n).toInt = n.bmod (2 ^ 32) := by
  simp [wrap32, BitVec.toInt_ofInt]

theorem inRange_iff (v : I32) : inRange v = true ↔ -32767 ≤ v.toInt ∧ v.toInt ≤ 32767 := by
  simp [inRange]

/-- What the common form of the arithmetic rules does (41_arithmetic.md R80, R81). -/
theorem writeResult_effect (ra : Reg) (n : Int) (s : State) : ArithmeticEffect ra n s (writeResult ra n s) := by
  have hr := inRange_iff (wrap32 n)
  rw [wrap32_toInt] at hr
  unfold writeResult overflowCheck
  split
  · rename_i h
    refine ⟨by simp, fun r hne => ?_, rfl, ?_, rfl, rfl, rfl, rfl, rfl, fun _ => rfl⟩
    · simpa using readReg_writeReg_ne s ra r _ hne
    · rw [if_pos (hr.mp h)]
      rfl
  · rename_i h
    refine ⟨by simp, fun r hne => ?_, rfl, ?_, rfl, rfl, rfl, rfl, rfl, fun _ => rfl⟩
    · simpa using readReg_writeReg_ne s ra r _ hne
    · rw [if_neg fun hc => h (hr.mpr hc)]
      rfl

end Sys2Proof.Machine
end

