-- ==== Sys2Proof/Laws/PerInstr.lean ====
section
/-! SUPPORT. The per-instruction family `EncodesWellFormed`: the Word the encoder writes for an instruction carries
that instruction's tag and passes every check of 30_encoding.md R64. -/

namespace Sys2Proof.Laws.EncodesWellFormed

/-- The encoded Word has a recognized tag and every used register field in range (30_encoding.md R64). -/
def Statement (i : Instr) : Prop :=
  (encode i).wellFormed = true

theorem empty : Statement .empty := by
  simp [Statement, Word.wellFormed, encode, recognized, usesRa, usesRb]

theorem data : Statement .data := by
  simp [Statement, Word.wellFormed, encode, recognized, usesRa, usesRb]

theorem ldi (ra : Reg) (p : I32) : Statement (.ldi ra p) := by
  simp [Statement, Word.wellFormed, encode, recognized, usesRa, usesRb]

theorem ldd (ra : Reg) (p : I32) : Statement (.ldd ra p) := by
  simp [Statement, Word.wellFormed, encode, recognized, usesRa, usesRb]

theorem ldx (ra rb : Reg) : Statement (.ldx ra rb) := by
  simp [Statement, Word.wellFormed, encode, recognized, usesRa, usesRb]

theorem std (ra : Reg) (p : I32) : Statement (.std ra p) := by
  simp [Statement, Word.wellFormed, encode, recognized, usesRa, usesRb]

theorem stx (ra rb : Reg) : Statement (.stx ra rb) := by
  simp [Statement, Word.wellFormed, encode, recognized, usesRa, usesRb]

theorem move (ra rb : Reg) : Statement (.move ra rb) := by
  simp [Statement, Word.wellFormed, encode, recognized, usesRa, usesRb]

theorem add (ra rb : Reg) : Statement (.add ra rb) := by
  simp [Statement, Word.wellFormed, encode, recognized, usesRa, usesRb]

theorem sub (ra rb : Reg) : Statement (.sub ra rb) := by
  simp [Statement, Word.wellFormed, encode, recognized, usesRa, usesRb]

theorem mult (ra rb : Reg) : Statement (.mult ra rb) := by
  simp [Statement, Word.wellFormed, encode, recognized, usesRa, usesRb]

theorem addi (ra : Reg) (p : I32) : Statement (.addi ra p) := by
  simp [Statement, Word.wellFormed, encode, recognized, usesRa, usesRb]

theorem subi (ra : Reg) (p : I32) : Statement (.subi ra p) := by
  simp [Statement, Word.wellFormed, encode, recognized, usesRa, usesRb]

theorem jmp (p : I32) : Statement (.jmp p) := by
  simp [Statement, Word.wellFormed, encode, recognized, usesRa, usesRb]

theorem jmpim (p : I32) : Statement (.jmpim p) := by
  simp [Statement, Word.wellFormed, encode, recognized, usesRa, usesRb]

theorem jmpig (ra rb : Reg) : Statement (.jmpig ra rb) := by
  simp [Statement, Word.wellFormed, encode, recognized, usesRa, usesRb]

theorem jmpil (ra rb : Reg) : Statement (.jmpil ra rb) := by
  simp [Statement, Word.wellFormed, encode, recognized, usesRa, usesRb]

theorem jmpie (ra rb : Reg) : Statement (.jmpie ra rb) := by
  simp [Statement, Word.wellFormed, encode, recognized, usesRa, usesRb]

theorem jmpigk (rb : Reg) (p : I32) : Statement (.jmpigk rb p) := by
  simp [Statement, Word.wellFormed, encode, recognized, usesRa, usesRb]

theorem jmpilk (rb : Reg) (p : I32) : Statement (.jmpilk rb p) := by
  simp [Statement, Word.wellFormed, encode, recognized, usesRa, usesRb]

theorem jmpiek (rb : Reg) (p : I32) : Statement (.jmpiek rb p) := by
  simp [Statement, Word.wellFormed, encode, recognized, usesRa, usesRb]

theorem jmpigm (rb : Reg) (p : I32) : Statement (.jmpigm rb p) := by
  simp [Statement, Word.wellFormed, encode, recognized, usesRa, usesRb]

theorem jmpilm (rb : Reg) (p : I32) : Statement (.jmpilm rb p) := by
  simp [Statement, Word.wellFormed, encode, recognized, usesRa, usesRb]

theorem jmpiem (rb : Reg) (p : I32) : Statement (.jmpiem rb p) := by
  simp [Statement, Word.wellFormed, encode, recognized, usesRa, usesRb]

theorem jmpigt (ra rb : Reg) (p : I32) : Statement (.jmpigt ra rb p) := by
  simp [Statement, Word.wellFormed, encode, recognized, usesRa, usesRb]

theorem syscall : Statement .syscall := by
  simp [Statement, Word.wellFormed, encode, recognized, usesRa, usesRb]

theorem stop : Statement .stop := by
  simp [Statement, Word.wellFormed, encode, recognized, usesRa, usesRb]

end Sys2Proof.Laws.EncodesWellFormed
end

