-- ==== Sys2Proof/Laws/Run.lean ====
section
/-! SUPPORT. From one step to a run, each induction packaged once; and what a step does to the address space and to
memory, as closure under the translator and under stores. -/

namespace Sys2Proof.Machine

/-- Whatever every step of a machine keeps, its runs keep. -/
theorem core_run_keeps (M : Host.Core) {P : M.State → Prop} (hstep : ∀ s t, P s → M.step s = .next t → P t)
    {k : Nat} {s t : M.State} (hs : P s) (h : M.run k s = .next t) : P t := by
  induction k generalizing s with
  | zero =>
    cases h
    exact hs
  | succ k ih =>
    rw [Host.Core.run] at h
    split at h
    · rename_i u hu
      exact ih (hstep s u hs hu) h
    · cases h
    · cases h

/-- Whatever every step keeps, a run keeps. -/
theorem run_keeps {P : State → Prop} (hstep : ∀ s t, P s → step s = .next t → P t) {k : Nat} {s t : State}
    (hs : P s) (h : Sys2Proof.core.run k s = .next t) : P t :=
  core_run_keeps Sys2Proof.core (P := P) hstep hs h

@[simp] theorem endOfCycle_space (s : State) : (endOfCycle s).space = s.space := by
  unfold endOfCycle
  split <;> rfl

@[simp] theorem endOfCycle_mem (s : State) : (endOfCycle s).mem = s.mem := by
  unfold endOfCycle
  split <;> rfl

@[simp] theorem endOfCycle_config (s : State) : (endOfCycle s).config = s.config := by
  unfold endOfCycle
  split <;> rfl

@[simp] theorem endOfCycle_boot (s : State) : (endOfCycle s).boot = s.boot := by
  unfold endOfCycle
  split <;> rfl

@[simp] theorem endOfCycle_regs (s : State) : (endOfCycle s).regs = s.regs := by
  unfold endOfCycle
  split <;> rfl

@[simp] theorem endOfCycle_pc (s : State) : (endOfCycle s).pc = s.pc := by
  unfold endOfCycle
  split <;> rfl

@[simp] theorem endOfCycle_pf (s : State) : (endOfCycle s).pf = s.pf := by
  unfold endOfCycle
  split <;> rfl

/-- Neither the configuration nor the boot phase changes in a step. -/
theorem step_fixed {s t : State} (h : step s = .next t) : t.config = s.config ∧ t.boot = s.boot := by
  rcases step_cases h with ⟨_, rfl⟩ | ⟨_, u, hb, rfl⟩
  · exact ⟨rfl, rfl⟩
  · rw [endOfCycle_config, endOfCycle_boot]
    cases hb with
    | fetchFault _ e => subst e; exact ⟨rfl, rfl⟩
    | illegal _ _ _ _ e => subst e; exact ⟨rfl, rfl⟩
    | executed _ _ _ _ e => exact ⟨(exec_can e).config, (exec_can e).boot⟩

/-- A step changes the address space only through the translator. -/
theorem step_space {P : AddressSpace → Prop} {s t : State}
    (htr : ∀ a va, P a → P (a.translate s.config va).2) (hs : P s.space) (h : step s = .next t) : P t.space := by
  rcases step_cases h with ⟨_, rfl⟩ | ⟨_, u, hb, rfl⟩
  · exact hs
  · rw [endOfCycle_space]
    have hf : P (afterFetch s).space := htr _ _ hs
    cases hb with
    | fetchFault _ e => subst e; exact hs
    | illegal _ _ _ _ e => subst e; exact hf
    | executed _ _ _ _ e =>
      rcases (exec_can e).space with he | ⟨va, he⟩
      · rw [he]; exact hf
      · rw [he]; exact htr _ _ hf

/-- A step changes memory only by one store of a data word at a translated address. -/
theorem step_mem {s t : State} (h : step s = .next t) :
    t.mem = s.mem ∨ ∃ pa v a va, (∃ b, a = (AddressSpace.translate s.config b s.space).2) ∧
      (a.translate s.config va).1 = some pa ∧ t.mem = memSet s.empty pa (dataWord v) s.mem := by
  rcases step_cases h with ⟨_, rfl⟩ | ⟨_, u, hb, rfl⟩
  · exact .inl rfl
  · rw [endOfCycle_mem]
    cases hb with
    | fetchFault _ e => subst e; exact .inl rfl
    | illegal _ _ _ _ e => subst e; exact .inl rfl
    | executed _ _ _ _ e =>
      rcases (exec_can e).mem with he | ⟨_, va, pa, v, hp, he⟩
      · exact .inl he
      · exact .inr ⟨pa, v, _, va, ⟨_, rfl⟩, hp, he⟩

end Sys2Proof.Machine
end

