-- ==== Sys2Proof/Laws/Ports.lean ====
section
/-! SUPPORT. What the loops of the host's ports do: `loadWords`, `dumpWords`, `driverRun`. -/

namespace Sys2Proof.Machine

/-- An address no larger than 2^31 - 1 is itself as a signed Int32. -/
theorem toInt_ofNat_small {i : Nat} (h : i ≤ 2147483647) : (BitVec.ofNat 32 i).toInt = i := by
  rw [BitVec.toInt_ofNat']
  have : ((i : Int).bmod (2 ^ 32)) = i := Int.bmod_eq_of_le (by omega) (by omega)
  exact this

/-- An access that is not accessible does not translate. -/
theorem translated_of_not_accessible {s : State} (hc : s.config.accepted = true) {va : I32} (h : ¬ Accessible va s) :
    translated va s = none := by
  cases ht : translated va s with
  | none => rfl
  | some pa => exact absurd ((translated_isSome_iff hc va).mp (by rw [ht]; rfl)) h

/-- With no frame free, a translation changes nothing. -/
theorem translate_exhausted {c : Configuration} {a : AddressSpace} (h : firstFree a.occupied 0 c.frameCount = none)
    (va : I32) : (a.translate c va).2 = a := by
  rcases translate_cases c va a with ⟨_, e⟩ | ⟨_, g, _, e⟩ | ⟨_, hn, g, hf, e⟩ | ⟨_, _, _, e⟩
  · rw [e]
  · rw [e]
  · rw [h] at hf
    cases hf
  · rw [e]

/-- A load writes no register, no pc, no `pf`, no `status`, no event and no configuration. -/
theorem loadWords_keeps (image : List Word) (i : Nat) (s : State) :
    (loadWords i image s).regs = s.regs ∧ (loadWords i image s).pc = s.pc ∧ (loadWords i image s).pf = s.pf ∧
    (loadWords i image s).status = s.status ∧ (loadWords i image s).trace = s.trace ∧
    (loadWords i image s).config = s.config := by
  induction image generalizing i s with
  | nil => exact ⟨rfl, rfl, rfl, rfl, rfl, rfl⟩
  | cons w rest ih =>
    unfold loadWords
    split
    · exact ih _ _
    · exact ⟨rfl, rfl, rfl, rfl, rfl, rfl⟩

/-- What every translation of an address space keeps, a load keeps of the address space. -/
theorem loadWords_space {P : AddressSpace → Prop} (image : List Word) (i : Nat) (s : State)
    (hP : ∀ a va, P a → P (a.translate s.config va).2) (h : P s.space) : P (loadWords i image s).space := by
  induction image generalizing i s with
  | nil => exact h
  | cons w rest ih =>
    unfold loadWords
    split
    · exact ih _ _ hP (hP _ _ h)
    · exact hP _ _ h

/-- A dump changes nothing but the address space. -/
theorem dumpWords_frame (n : Nat) (va : I32) (s : State) :
    (dumpWords va n s).1 = { s with space := (dumpWords va n s).1.space } := by
  induction n generalizing va s with
  | zero => rfl
  | succ n ih =>
    have := ih (va + 1) (afterTranslate va s)
    show (dumpWords (va + 1) n (afterTranslate va s)).1 =
      { s with space := (dumpWords (va + 1) n (afterTranslate va s)).1.space }
    generalize (dumpWords (va + 1) n (afterTranslate va s)).1 = u at *
    rw [this]
    rfl

/-- A dump answers one Word or Fail per address. -/
theorem dumpWords_length (n : Nat) (va : I32) (s : State) : (dumpWords va n s).2.length = n := by
  induction n generalizing va s with
  | zero => rfl
  | succ n ih => simp [dumpWords, ih]

/-- What every translation of an address space keeps, a dump keeps of the address space. -/
theorem dumpWords_space {P : AddressSpace → Prop} (n : Nat) (va : I32) (s : State)
    (hP : ∀ a va, P a → P (a.translate s.config va).2) (h : P s.space) : P (dumpWords va n s).1.space := by
  induction n generalizing va s with
  | zero => exact h
  | succ n ih => exact ih (va + 1) (afterTranslate va s) hP (hP _ _ h)

/-- What every translation of an address space keeps, the standalone driver keeps of it. -/
theorem driverRun_space {P : AddressSpace → Prop} (c : Configuration) (vas : List I32) (a : AddressSpace)
    (hP : ∀ a va, P a → P (a.translate c va).2) (h : P a) : P (driverRun c vas a).space := by
  induction vas generalizing a with
  | nil => exact h
  | cons va rest ih =>
    have hb := hP a va h
    unfold driverRun
    split
    · rename_i e
      rw [e] at hb
      exact ih _ hb
    · rename_i e
      rw [e] at hb
      exact hb

/-! ### Translating addresses in order -/

@[simp] theorem spaceAfter_nil (c : Configuration) (a : AddressSpace) : spaceAfter c [] a = a := rfl

@[simp] theorem spaceAfter_cons (c : Configuration) (va : I32) (vas : List I32) (a : AddressSpace) :
    spaceAfter c (va :: vas) a = spaceAfter c vas (a.translate c va).2 := rfl

/-- What every translation of an address space keeps, translating any addresses in order keeps. -/
theorem spaceAfter_keeps {P : AddressSpace → Prop} (c : Configuration) (vas : List I32) (a : AddressSpace)
    (hP : ∀ a va, P a → P (a.translate c va).2) (h : P a) : P (spaceAfter c vas a) := by
  induction vas generalizing a with
  | nil => exact h
  | cons va rest ih => exact ih _ (hP _ _ h)

@[simp] theorem addressesFrom_zero (lo : I32) : addressesFrom lo 0 = [] := rfl

theorem ofInt_add_succ (lo : I32) (k : Nat) :
    BitVec.ofInt 32 (lo.toInt + ((k + 1 : Nat) : Int)) = BitVec.ofInt 32 ((lo + 1).toInt + (k : Int)) := by
  rw [BitVec.ofInt_add, BitVec.ofInt_add, BitVec.ofInt_toInt, BitVec.ofInt_toInt, Int.natCast_add, BitVec.ofInt_add]
  have : BitVec.ofInt 32 ((1 : Nat) : Int) = (1 : I32) := rfl
  rw [this, BitVec.add_comm (BitVec.ofInt 32 (k : Int)), BitVec.add_assoc]

theorem addressesFrom_succ (lo : I32) (n : Nat) :
    addressesFrom lo (n + 1) = lo :: addressesFrom (lo + 1) n := by
  unfold addressesFrom
  rw [List.range_succ_eq_map, List.map_cons, List.map_map]
  congr 1
  · simp
  · exact List.map_congr_left fun k _ => ofInt_add_succ lo k

/-- A dump leaves the address space that translating its addresses in order leaves. -/
theorem dumpWords_spaceAfter (n : Nat) (lo : I32) (s : State) :
    (dumpWords lo n s).1.space = spaceAfter s.config (addressesFrom lo n) s.space := by
  induction n generalizing lo s with
  | zero => rfl
  | succ n ih =>
    rw [addressesFrom_succ, spaceAfter_cons]
    exact ih (lo + 1) (afterTranslate lo s)

/-- The answers of a dump: each is that of the translator in the space the addresses before it left. -/
theorem dumpWords_answer (n : Nat) (lo : I32) (s : State) {k : Nat} {word : Option Word}
    (h : (dumpWords lo n s).2[k]? = some word) :
    word = ((spaceAfter s.config (addressesFrom lo k) s.space).translate s.config
      (BitVec.ofInt 32 (lo.toInt + k))).1.map fun pa => physRead pa s := by
  induction n generalizing lo s k with
  | zero => simp [dumpWords] at h
  | succ n ih =>
    cases k with
    | zero =>
      simp only [dumpWords, List.getElem?_cons_zero, Option.some.injEq] at h
      subst h
      simp [translated]
    | succ k =>
      simp only [dumpWords, List.getElem?_cons_succ] at h
      rw [addressesFrom_succ, spaceAfter_cons, ofInt_add_succ]
      exact ih (lo + 1) (afterTranslate lo s) h

/-- In a sound address space whose page `p` is bound to frame `p` for every `p` below `m`, and no other page is bound,
`m` pages are mapped. -/
theorem length_of_pages {c : Configuration} {a : AddressSpace} (hs : SpaceInv c a) {m : Nat}
    (h : ∀ page, frameOf page a.pageTable = if page < m then some page else none) : a.pageTable.length = m := by
  have h1 : ∀ f, f < a.pageTable.length ↔ f < m := by
    intro f
    have := hs.occupied_iff_bound f
    rw [hs.occupied_prefix, List.mem_range] at this
    rw [this]
    constructor
    · rintro ⟨p, hp⟩
      rw [h] at hp
      split at hp
      · cases hp
        assumption
      · cases hp
    · intro hf
      exact ⟨f, by rw [h, if_pos hf]⟩
  rcases lt_trichotomy a.pageTable.length m with h' | h' | h'
  · have := (h1 _).mpr h'
    omega
  · exact h'
  · have := (h1 _).mp h'
    omega

end Sys2Proof.Machine
end

