-- ==== Sys2Proof/Tests/Slice0.lean ====
section
/-! SUPPORT. Our own tests. Every expected value is copied from 95_test_vectors.md, whose row is named in each comment,
or written out from the tables of 30_encoding.md. After them, a witness for every statement that has hypotheses. -/

namespace Sys2Proof.Tests

open Sys2Proof Sys2Proof.Machine

/-! ### Well-formedness: one ill-formed Word for each check, refused; and the boundary Words, accepted -/

theorem test_wf_unrecognized_tag :
    Word.wellFormed ⟨0x1B, -1, -1, -1⟩ = false ∧ decode ⟨0x1B, -1, -1, -1⟩ = .rejected (.unrecognizedTag 0x1B) := by
  decide

theorem test_wf_ra_out_of_range :
    Word.wellFormed ⟨0x02, 10, -1, 1⟩ = false ∧ decode ⟨0x02, 10, -1, 1⟩ = .rejected (.raOutOfRange 10) := by
  decide

theorem test_wf_rb_out_of_range :
    Word.wellFormed ⟨0x12, -1, 10, 3⟩ = false ∧ decode ⟨0x12, -1, 10, 3⟩ = .rejected (.rbOutOfRange 10) := by
  decide

theorem test_wf_negative_register :
    Word.wellFormed ⟨0x08, 0, -1, -1⟩ = false ∧ decode ⟨0x08, 0, -1, -1⟩ = .rejected (.rbOutOfRange (-1)) ∧
    regInRange (-1) = false := by
  decide

theorem test_wf_boundary :
    Word.wellFormed ⟨0x18, 9, 0, -1⟩ = true ∧ Word.wellFormed ⟨0x1A, 50, 50, -1⟩ = true := by
  decide

/-! ### Decoding: every constructor from a Word written out bit by bit (R60, R61); the unused fields of some of them
hold values that must be ignored (R62) -/

theorem test_decode_system :
    decodeBits 0x00_00000000_00000000_00000000#104 = .instr .empty ∧
    decodeBits 0x01_FFFFFFFF_FFFFFFFF_00000007#104 = .instr .data ∧
    decodeBits 0x19_00000032_00000032_FFFFFFFF#104 = .instr .syscall ∧
    decodeBits 0x1A_FFFFFFFF_FFFFFFFF_FFFFFFFF#104 = .instr .stop := by
  decide

theorem test_decode_data_transfer :
    decodeBits 0x02_00000000_00000063_00000001#104 = .instr (.ldi 0 1) ∧
    decodeBits 0x03_00000002_FFFFFFFF_0000000A#104 = .instr (.ldd 2 10) ∧
    decodeBits 0x04_00000001_00000004_FFFFFFFF#104 = .instr (.ldx 1 4) ∧
    decodeBits 0x05_00000001_FFFFFFFF_0000000A#104 = .instr (.std 1 10) ∧
    decodeBits 0x06_00000000_00000001_FFFFFFFF#104 = .instr (.stx 0 1) ∧
    decodeBits 0x07_00000002_00000006_FFFFFFFF#104 = .instr (.move 2 6) := by
  decide

theorem test_decode_arithmetic :
    decodeBits 0x08_00000000_00000001_FFFFFFFF#104 = .instr (.add 0 1) ∧
    decodeBits 0x09_00000000_00000006_FFFFFFFF#104 = .instr (.sub 0 6) ∧
    decodeBits 0x0A_00000001_00000000_FFFFFFFF#104 = .instr (.mult 1 0) ∧
    decodeBits 0x0B_00000000_FFFFFFFF_00000001#104 = .instr (.addi 0 1) ∧
    decodeBits 0x0C_00000000_FFFFFFFF_00008000#104 = .instr (.subi 0 32768) := by
  decide

theorem test_decode_jumps :
    decodeBits 0x0D_FFFFFFFF_FFFFFFFF_00000004#104 = .instr (.jmp 4) ∧
    decodeBits 0x0E_FFFFFFFF_FFFFFFFF_0000001E#104 = .instr (.jmpim 30) ∧
    decodeBits 0x0F_00000007_00000001_FFFFFFFF#104 = .instr (.jmpig 7 1) ∧
    decodeBits 0x10_00000007_00000001_FFFFFFFF#104 = .instr (.jmpil 7 1) ∧
    decodeBits 0x11_00000007_00000000_FFFFFFFF#104 = .instr (.jmpie 7 0) ∧
    decodeBits 0x12_00003039_00000000_00000005#104 = .instr (.jmpigk 0 5) ∧
    decodeBits 0x13_FFFFFFFF_00000002_00000003#104 = .instr (.jmpilk 2 3) ∧
    decodeBits 0x14_FFFFFFFF_00000000_00000008#104 = .instr (.jmpiek 0 8) := by
  decide

theorem test_decode_memory_jumps_and_jmpigt :
    decodeBits 0x15_FFFFFFFF_00000002_0000001E#104 = .instr (.jmpigm 2 30) ∧
    decodeBits 0x16_FFFFFFFF_00000002_0000001E#104 = .instr (.jmpilm 2 30) ∧
    decodeBits 0x17_FFFFFFFF_00000000_FFFFFFFF#104 = .instr (.jmpiem 0 (-1)) ∧
    decodeBits 0x18_00000002_00000000_00000003#104 = .instr (.jmpigt 2 0 3) := by
  decide

/-- The opcode table's numbering: bits 7..0 are the tag (the table's own), the other fields follow. -/
theorem test_decode_table_word :
    decodeTableWord 8 0x1A = some .stop ∧ decodeTableWord 8 0x18 = some (.jmpigt 0 0 0) ∧
    decodeTableWord 8 0x1B = none ∧ decodeTableWord 104 0x00000007_00000006_00000005_18 = some (.jmpigt 5 6 7) := by
  decide

/-! ### A bench for one step -/

/-- The bench's configuration: the sizes of 95_test_vectors.md, and a payload of empty words that shows. -/
def benchConfig : Configuration := ⟨2048, 1024, 4, 77⟩

/-- Ten registers, 1000 where the list does not say. -/
def regsOf (l : List (Reg × I32)) : Vector I32 Config.nRegs :=
  l.foldl (fun v e => v.set e.1 e.2) (Vector.replicate _ 1000)

/-- `w` stored at a virtual address, its page bound. -/
def place (va : I32) (w : Word) (s : State) : State :=
  match translated va s with
  | some pa => physWrite pa w (afterTranslate va s)
  | none => s

/-- A started machine: each Word at its virtual address, pages bound in that order. -/
def machine (c : Configuration) (pc : I32) (regs : List (Reg × I32)) (cells : List (I32 × Word)) : State :=
  { cells.foldl (fun s cell => place cell.1 cell.2 s) (State.construct c (regsOf regs)) with pc := pc, boot := .started }

/-- The bench with the Word under test at the pc. -/
def bench (pc : I32) (w : Word) (regs : List (Reg × I32)) (cells : List (I32 × Word)) : State :=
  machine benchConfig pc regs ((pc, w) :: cells)

/-- One step answers a next state with the property. -/
def after (s : State) (p : State → Bool) : Bool :=
  match step s with
  | .next t => p t
  | .fault _ => false
  | .refused _ => false

/-- `k` steps answer a next state with the property. -/
def afterRun (k : Nat) (s : State) (p : State → Bool) : Bool :=
  match Sys2Proof.core.run k s with
  | .next t => p t
  | .fault _ => false
  | .refused _ => false

/-- Running on at `pc`, nothing logged. -/
def goesOn (pc : I32) (t : State) : Bool :=
  decide (t.pc = pc ∧ t.pf = .none ∧ t.status = .running ∧ t.trace = [])

/-- Halted by the fault `f`, logged at `pc`. -/
def faulted (f : PendingFault) (pc : I32) (t : State) : Bool :=
  decide (t.pc = pc ∧ t.pf = f ∧ t.status = .halted ∧ t.trace = [.interrupt f pc])

/-! ### Data transfer (95_test_vectors.md section 2.4) -/

/-- X1. -/
theorem test_ldi : after (bench 0 ⟨0x02, 0, -1, 40000⟩ [] [])
    (fun t => goesOn 1 t && decide (readReg 0 t = 40000)) = true := by decide

/-- X2. -/
theorem test_ldi_min : after (bench 0 ⟨0x02, 3, -1, -2147483648⟩ [] [])
    (fun t => goesOn 1 t && decide ((readReg 3 t).toInt = -2147483648)) = true := by decide

/-- X4: the `p` field of a Word that is no data word. -/
theorem test_ldd_code_word : after (bench 0 ⟨0x03, 2, -1, 10⟩ [] [(10, ⟨0x1A, -1, -1, -1⟩)])
    (fun t => goesOn 1 t && decide (readReg 2 t = -1)) = true := by decide

/-- X5: a never-written word of an unmapped page; page 10 binds the lowest free frame, which is 1. -/
theorem test_ldd_empty_word : after (bench 0 ⟨0x03, 2, -1, 40⟩ [] [])
    (fun t => goesOn 1 t && decide (readReg 2 t = 77 ∧ frameOf 10 t.space.pageTable = some 1)) = true := by decide

/-- X8: the address is read before the register is written. -/
theorem test_ldx_same_register : after (bench 0 ⟨0x04, 0, 0, -1⟩ [(0, 20)] [(20, ⟨0x01, -1, -1, 5⟩)])
    (fun t => goesOn 1 t && decide (readReg 0 t = 5)) = true := by decide

/-- X9. -/
theorem test_ldx_fault : after (bench 0 ⟨0x04, 1, 4, -1⟩ [(4, -4)] [])
    (fun t => faulted .invalidAddress 0 t && decide (readReg 1 t = 1000)) = true := by decide

/-- X11: a store over the instruction itself. -/
theorem test_std_over_code : after (bench 0 ⟨0x05, 1, -1, 0⟩ [(1, 9)] [])
    (fun t => goesOn 1 t && decide (peek 0 t = some ⟨0x01, -1, -1, 9⟩)) = true := by decide

/-- Exhaustion through a store, after X17: cfg 8/4/4, the only frame is page 0's. -/
theorem test_std_exhausted : after (machine ⟨8, 4, 4, 77⟩ 0 [] [(0, ⟨0x05, 0, -1, 4⟩)])
    (fun t => faulted .invalidAddress 0 t && decide (ptEntry 1 t.space.pageTable = -1 ∧
      peek 0 t = some ⟨0x05, 0, -1, 4⟩)) = true := by decide

/-- X13. -/
theorem test_stx : after (bench 0 ⟨0x06, 0, 1, -1⟩ [(0, 30), (1, -4)] [])
    (fun t => goesOn 1 t && decide (peek 30 t = some ⟨0x01, -1, -1, -4⟩)) = true := by decide

/-- X15. -/
theorem test_stx_fault : after (bench 0 ⟨0x06, 0, 1, -1⟩ [(0, 2048), (1, 3)] [])
    (fun t => faulted .invalidAddress 0 t && decide (t.mem = [(0, ⟨0x06, 0, 1, -1⟩)])) = true := by decide

/-- X16. -/
theorem test_move : after (bench 0 ⟨0x07, 2, 6, -1⟩ [(6, 1)] [])
    (fun t => goesOn 1 t && decide (readReg 2 t = 1 ∧ readReg 6 t = 1)) = true := by decide

/-- X17. -/
theorem test_move_unchecked : after (bench 0 ⟨0x07, 5, 5, -1⟩ [(5, 99999)] [])
    (fun t => goesOn 1 t && decide (readReg 5 t = 99999)) = true := by decide

/-! ### Arithmetic (section 2.5): the instruction sits at pc 1 -/

/-- W5, M3. -/
theorem test_add_overflow : after (bench 1 ⟨0x08, 0, 1, -1⟩ [(0, 32767), (1, 1)] [])
    (fun t => faulted .overflow 2 t && decide (readReg 0 t = 32768)) = true := by decide

/-- M6: the operands are not checked. -/
theorem test_add_large_operand : after (bench 1 ⟨0x08, 0, 1, -1⟩ [(0, 40000), (1, -10000)] [])
    (fun t => goesOn 2 t && decide (readReg 0 t = 30000)) = true := by decide

/-- M9: -32768 is out of range. -/
theorem test_sub_min : after (bench 1 ⟨0x09, 0, 1, -1⟩ [(0, -32767), (1, 1)] [])
    (fun t => faulted .overflow 2 t && decide ((readReg 0 t).toInt = -32768)) = true := by decide

/-- M10: which operand is subtracted. -/
theorem test_sub_max : after (bench 1 ⟨0x09, 0, 1, -1⟩ [(0, 0), (1, -32767)] [])
    (fun t => goesOn 2 t && decide (readReg 0 t = 32767)) = true := by decide

/-- M18: wrapped into range, so no overflow. -/
theorem test_mult_wraps_in_range : after (bench 1 ⟨0x0A, 0, 1, -1⟩ [(0, 65536), (1, 65536)] [])
    (fun t => goesOn 2 t && decide (readReg 0 t = 0)) = true := by decide

/-- M19. -/
theorem test_mult_overflow : after (bench 1 ⟨0x0A, 0, 1, -1⟩ [(0, 46341), (1, 46341)] [])
    (fun t => faulted .overflow 2 t && decide ((readReg 0 t).toInt = -2147479015)) = true := by decide

/-- M25: the result is checked though nothing is added. -/
theorem test_addi_zero : after (bench 1 ⟨0x0B, 0, -1, 0⟩ [(0, 40000)] [])
    (fun t => faulted .overflow 2 t && decide (readReg 0 t = 40000)) = true := by decide

/-- M26. -/
theorem test_addi_negative : after (bench 1 ⟨0x0B, 0, -1, -20⟩ [(0, 10)] [])
    (fun t => goesOn 2 t && decide ((readReg 0 t).toInt = -10)) = true := by decide

/-- M28. -/
theorem test_subi_min_in_range : after (bench 1 ⟨0x0C, 0, -1, 32767⟩ [(0, 0)] [])
    (fun t => goesOn 2 t && decide ((readReg 0 t).toInt = -32767)) = true := by decide

/-- M30. -/
theorem test_subi_wraps : after (bench 1 ⟨0x0C, 0, -1, -2147483648⟩ [(0, 0)] [])
    (fun t => faulted .overflow 2 t && decide ((readReg 0 t).toInt = -2147483648)) = true := by decide

/-! ### Control transfer (section 2.6): the instruction sits at pc 4 -/

/-- J1. -/
theorem test_jmp : after (bench 4 ⟨0x0D, -1, -1, 9⟩ [] []) (goesOn 9) = true := by decide

/-- J3: the target is not checked. -/
theorem test_jmp_negative : after (bench 4 ⟨0x0D, -1, -1, -3⟩ [] []) (goesOn (-3)) = true := by decide

/-- J6. -/
theorem test_jmpim : after (bench 4 ⟨0x0E, -1, -1, 30⟩ [] [(30, ⟨0x02, 0, -1, 7⟩)]) (goesOn 7) = true := by decide

/-- J7. -/
theorem test_jmpim_fault : after (bench 4 ⟨0x0E, -1, -1, -1⟩ [] []) (faulted .invalidAddress 4) = true := by decide

/-- J8. -/
theorem test_jmpig : after (bench 4 ⟨0x0F, 7, 1, -1⟩ [(7, 9), (1, 5)] []) (goesOn 9) = true := by decide

/-- J10. -/
theorem test_jmpig_not : after (bench 4 ⟨0x0F, 7, 1, -1⟩ [(7, 9), (1, -1)] []) (goesOn 5) = true := by decide

/-- J11. -/
theorem test_jmpil : after (bench 4 ⟨0x10, 7, 1, -1⟩ [(7, 9), (1, -3)] []) (goesOn 9) = true := by decide

/-- J12. -/
theorem test_jmpil_not : after (bench 4 ⟨0x10, 7, 1, -1⟩ [(7, 9), (1, 0)] []) (goesOn 5) = true := by decide

/-- J13. -/
theorem test_jmpie : after (bench 4 ⟨0x11, 7, 0, -1⟩ [(7, 8), (0, 0)] []) (goesOn 8) = true := by decide

/-- J14. -/
theorem test_jmpie_not : after (bench 4 ⟨0x11, 7, 0, -1⟩ [(7, 8), (0, 1)] []) (goesOn 5) = true := by decide

/-- J16. -/
theorem test_jmpigk : after (bench 4 ⟨0x12, -1, 2, 3⟩ [(2, 1)] []) (goesOn 3) = true := by decide

/-- J17. -/
theorem test_jmpigk_not : after (bench 4 ⟨0x12, -1, 2, 3⟩ [(2, 0)] []) (goesOn 5) = true := by decide

/-- J19. -/
theorem test_jmpilk : after (bench 4 ⟨0x13, -1, 2, 3⟩ [(2, -2147483648)] []) (goesOn 3) = true := by decide

/-- J20. -/
theorem test_jmpilk_not : after (bench 4 ⟨0x13, -1, 2, 3⟩ [(2, 0)] []) (goesOn 5) = true := by decide

/-- J21. -/
theorem test_jmpiek : after (bench 4 ⟨0x14, -1, 0, 8⟩ [(0, 0)] []) (goesOn 8) = true := by decide

/-- J22. -/
theorem test_jmpiek_not : after (bench 4 ⟨0x14, -1, 0, 8⟩ [(0, 3)] []) (goesOn 5) = true := by decide

/-- J25: not taken, so page 12 stays unmapped. -/
theorem test_jmpigm_not : after (bench 4 ⟨0x15, -1, 2, 48⟩ [(2, 0)] [])
    (fun t => goesOn 5 t && decide (ptEntry 12 t.space.pageTable = -1)) = true := by decide

/-- J26: to EMPTY_P, and page 12 binds the lowest free frame. -/
theorem test_jmpigm_empty_word : after (bench 4 ⟨0x15, -1, 2, 48⟩ [(2, 4)] [])
    (fun t => goesOn 77 t && decide (ptEntry 12 t.space.pageTable = 1)) = true := by decide

/-- J27. -/
theorem test_jmpilm : after (bench 4 ⟨0x16, -1, 2, 30⟩ [(2, -4)] [(30, ⟨0x01, -1, -1, 6⟩)]) (goesOn 6) = true := by
  decide

/-- J28. -/
theorem test_jmpilm_not : after (bench 4 ⟨0x16, -1, 2, 30⟩ [(2, 0)] [(30, ⟨0x01, -1, -1, 6⟩)]) (goesOn 5) = true := by
  decide

/-- J29. -/
theorem test_jmpiem : after (bench 4 ⟨0x17, -1, 0, 31⟩ [(0, 0)] [(31, ⟨0x01, -1, -1, 2⟩)]) (goesOn 2) = true := by
  decide

/-- J30. -/
theorem test_jmpiem_fault : after (bench 4 ⟨0x17, -1, 0, -1⟩ [(0, 0)] []) (faulted .invalidAddress 4) = true := by
  decide

/-- J34: signed. -/
theorem test_jmpigt : after (bench 4 ⟨0x18, 2, 0, 3⟩ [(2, -1), (0, -2)] []) (goesOn 3) = true := by decide

/-- J33: strict. -/
theorem test_jmpigt_equal : after (bench 4 ⟨0x18, 2, 0, 3⟩ [(2, 23), (0, 23)] []) (goesOn 5) = true := by decide

/-! ### System (section 2.7): the instruction sits at pc 4 -/

/-- S3: the `p` field of any Word is emitted. -/
theorem test_syscall_write : after (bench 4 ⟨0x19, -1, -1, -1⟩ [(8, 2), (9, 0)] [(0, ⟨0x02, 0, -1, 7⟩)])
    (fun t => decide (t.trace = [.out 7] ∧ portOut t = [7] ∧ portLog t = [] ∧ t.pc = 5 ∧
      t.status = .running)) = true := by decide

/-- S4: a failed write does not end SYSCALL. -/
theorem test_syscall_write_fault : after (bench 4 ⟨0x19, -1, -1, -1⟩ [(8, 2), (9, -5)] [])
    (faulted .invalidAddress 5) = true := by decide

/-- S10. -/
theorem test_stop : after (bench 4 ⟨0x1A, -1, -1, -1⟩ [] [])
    (fun t => decide (t.trace = [.stopNote] ∧ portStatus t = (.halted, .none) ∧ t.pc = 4)) = true := by decide

/-- S11. -/
theorem test_data : after (bench 4 ⟨0x01, -1, -1, 9⟩ [] []) (faulted .invalidInstruction 4) = true := by decide

/-- D8, S12: the all-zero Word. -/
theorem test_empty : after (bench 4 ⟨0x00, 0, 0, 0⟩ [] []) (goesOn 5) = true := by decide

/-! ### The cycle (section 2.8) -/

/-- E1: cfg 8/8/4, pc 8. -/
theorem test_fetch_outside : after (machine ⟨8, 8, 4, 77⟩ 8 [] []) (faulted .invalidAddress 8) = true := by decide

/-- E2, its second cycle: the fetch needs page 1 and no frame is free. -/
theorem test_fetch_exhausted : after (machine ⟨8, 4, 4, 77⟩ 4 [] [(0, ⟨0x0D, -1, -1, 4⟩)])
    (fun t => faulted .invalidAddress 4 t && decide (ptEntry 1 t.space.pageTable = -1)) = true := by decide

/-- D5 in a cycle: a used register field out of range. -/
theorem test_decode_fault : after (bench 0 ⟨0x08, 0, -1, -1⟩ [] []) (faulted .invalidInstruction 0) = true := by decide

/-- Running `withFetchWord` from reset: SYSCALL is selected by r8, which reset leaves at the 0 of log entry 1, so it
logs InvalidParam (S7). -/
theorem test_withFetchWord : after (State.reset.withFetchWord 8 0x19)
    (fun t => decide (t.trace = [.invalidParam] ∧ t.pc = 1)) = true := by decide

/-! ### Configuration, load, start, dump, driver (sections 1, 2.1, 2.2, 2.9) -/

/-- V1 to V3; and V4 with the physical size 6 in place of 8, which its page size 3 does not divide (log entry 20). -/
theorem test_config :
    portConfig 10 8 4 (regsOf []) 77 = .refused .invalidConfiguration ∧
    portConfig 8 10 4 (regsOf []) 77 = .refused .invalidConfiguration ∧
    portConfig 0 8 4 (regsOf []) 77 = .refused .invalidConfiguration ∧
    portConfig 8 8 0 (regsOf []) 77 = .refused .invalidConfiguration ∧
    portConfig 12 6 3 (regsOf []) 77 = .next (State.construct ⟨12, 6, 3, 77⟩ (regsOf [])) ∧
    (Configuration.mk 12 6 3 77).pageCount = 4 ∧ (Configuration.mk 12 6 3 77).frameCount = 2 :=
  ⟨rfl, rfl, rfl, rfl, rfl, rfl, rfl⟩

/-- An image of `n` Words STOP. -/
def stops (n : Nat) : List Word := List.replicate n ⟨0x1A, -1, -1, -1⟩

/-- V6: cfg 16/8/4, six words. -/
theorem test_load : (loadWords 0 (stops 6) (State.construct ⟨16, 8, 4, 77⟩ (regsOf []))).boot = .loaded ∧
    (loadWords 0 (stops 6) (State.construct ⟨16, 8, 4, 77⟩ (regsOf []))).space = ⟨[(0, 0), (1, 1)], [0, 1]⟩ := by decide

/-- V7, V8: the ninth word finds no frame, or no page. -/
theorem test_load_fails :
    (loadWords 0 (stops 9) (State.construct ⟨16, 8, 4, 77⟩ (regsOf []))).boot = .loadFailed 8 ∧
    (loadWords 0 (stops 9) (State.construct ⟨8, 16, 4, 77⟩ (regsOf []))).boot = .loadFailed 8 ∧
    (loadWords 0 (stops 9) (State.construct ⟨16, 8, 4, 77⟩ (regsOf []))).mem.length = 8 := by decide

/-- The state of section 2.2 after T1 and T2: cfg 16/8/4, page 1 in frame 0 and page 0 in frame 1. -/
def afterT2 : AddressSpace := ⟨[(0, 1), (1, 0)], [0, 1]⟩

/-- T1 and T2. -/
theorem test_translate_binds :
    AddressSpace.translate ⟨16, 8, 4, 77⟩ 5 ⟨[], []⟩ = (some 1, ⟨[(1, 0)], [0]⟩) ∧
    AddressSpace.translate ⟨16, 8, 4, 77⟩ 0 ⟨[(1, 0)], [0]⟩ = (some 4, afterT2) := by decide

/-- T3 to T10. -/
theorem test_translate_after :
    AddressSpace.translate ⟨16, 8, 4, 77⟩ 7 afterT2 = (some 3, afterT2) ∧
    AddressSpace.translate ⟨16, 8, 4, 77⟩ 9 afterT2 = (none, afterT2) ∧
    AddressSpace.translate ⟨16, 8, 4, 77⟩ 2 afterT2 = (some 6, afterT2) ∧
    AddressSpace.translate ⟨16, 8, 4, 77⟩ 16 afterT2 = (none, afterT2) ∧
    AddressSpace.translate ⟨16, 8, 4, 77⟩ (-1) afterT2 = (none, afterT2) ∧
    AddressSpace.translate ⟨16, 8, 4, 77⟩ (-2147483648) afterT2 = (none, afterT2) ∧
    AddressSpace.translate ⟨16, 8, 4, 77⟩ 2147483647 afterT2 = (none, afterT2) := by decide

/-- W2, A2, A4. -/
theorem test_allocate :
    allocate 4 [] [0, 2] 7 = ([(7, 1)], [0, 1, 2], .bound 1) ∧
    allocate 3 [] [1] 7 = ([(7, 0)], [0, 1], .bound 0) ∧
    allocate 3 [(7, 0)] [0, 1, 2] 8 = ([(7, 0)], [0, 1, 2], .exhausted) := by decide

/-- U1 and U3: cfg 16/16/4, four words loaded. -/
theorem test_dump :
    (dumpWords 0 6 (loadWords 0 (stops 4) (State.construct ⟨16, 16, 4, 77⟩ (regsOf [])))).2 =
      [some ⟨0x1A, -1, -1, -1⟩, some ⟨0x1A, -1, -1, -1⟩, some ⟨0x1A, -1, -1, -1⟩, some ⟨0x1A, -1, -1, -1⟩,
        some ⟨0x00, -1, -1, 77⟩, some ⟨0x00, -1, -1, 77⟩] ∧
    frameOf 1 (dumpWords 0 6 (loadWords 0 (stops 4) (State.construct ⟨16, 16, 4, 77⟩ (regsOf [])))).1.space.pageTable =
      some 1 ∧
    (dumpWords (-1) 2 (loadWords 0 (stops 4) (State.construct ⟨16, 16, 4, 77⟩ (regsOf [])))).2 =
      [none, some ⟨0x1A, -1, -1, -1⟩] := by decide

/-- W3a: the standalone driver with one frame. -/
theorem test_driver :
    driverRun ⟨8, 4, 4, 77⟩ [0, 4, 1] ⟨[], []⟩ = ⟨[0], some 4, ⟨[(0, 0)], [0]⟩⟩ := by decide

/-- Lines of P1 and P3 (section 3) and their encodings there, each at its own address. -/
theorem test_assemble :
    assemble [⟨[], "LDI", [.reg 0, .number 7]⟩, ⟨["loop"], "JMPIE", [.reg 7, .reg 0]⟩, ⟨[], "JMP", [.label "loop"]⟩,
      ⟨["done"], "STD", [.reg 1, .number 10]⟩, ⟨[], "STOP", []⟩, ⟨[], "DATA", [.number 42]⟩, ⟨[], "EMPTY", []⟩] =
    some [⟨0x02, 0, -1, 7⟩, ⟨0x11, 7, 0, -1⟩, ⟨0x0D, -1, -1, 1⟩, ⟨0x05, 1, -1, 10⟩, ⟨0x1A, -1, -1, -1⟩,
      ⟨0x01, -1, -1, 42⟩, ⟨0x00, -1, -1, 0⟩] := by decide

theorem test_assemble_refuses :
    assemble [⟨[], "LDI", [.reg 10, .number 7]⟩] = none ∧ assemble [⟨[], "STOP", [.reg 1]⟩] = none ∧
    assemble [⟨[], "JMP", [.label "nowhere"]⟩] = none ∧ assemble [⟨[], "NOP", []⟩] = none ∧
    assemble [⟨[], "LDI", [.reg 0, .number 2147483648]⟩] = none := by decide

/-- S10 again: the final observation of a STOP at pc 1. -/
theorem test_observe : after (machine ⟨8, 4, 2, 77⟩ 1 [] [(1, ⟨0x1A, -1, -1, -1⟩)])
    (fun t => decide ((observe t).map (fun o => (o.status, o.pc, o.memory, o.outputs)) =
      some ((.halted, .none), 1, [(0, ⟨0x00, -1, -1, 77⟩), (1, ⟨0x1A, -1, -1, -1⟩)], []))) = true := by decide

/-! ### Witnesses: for each statement with hypotheses, concrete values that meet them, clause by clause at the ends of
its ranges -/

theorem exists_of_after {s : State} {p : State → Bool} (h : after s p = true) : ∃ t, step s = .next t ∧ p t = true := by
  unfold after at h
  split at h
  · exact ⟨_, by assumption, h⟩
  · cases h
  · cases h

theorem exists_of_afterRun {k : Nat} {s : State} {p : State → Bool} (h : afterRun k s p = true) :
    ∃ t : State, Sys2Proof.core.run k s = .next t ∧ p t = true := by
  unfold afterRun at h
  split at h
  · exact ⟨_, by assumption, h⟩
  · cases h
  · cases h

theorem accessible_of {va : I32} {s : State} (hc : s.config.accepted = true) (h : (translated va s).isSome = true) :
    Accessible va s :=
  (translated_isSome_iff hc va).mp h

theorem not_accessible_of {va : I32} {s : State} (hc : s.config.accepted = true)
    (h : (translated va s).isSome = false) : ¬ Accessible va s := by
  intro ha
  rw [(translated_isSome_iff hc va).mpr ha] at h
  cases h

/-- A running machine with room: virtual and physical 16, page size 4; page 0 is bound to frame 0, the rest is free.
r0 to r3 hold addresses: valid, last valid, first invalid, negative. -/
def roomy (w : Word) : State :=
  { State.construct ⟨16, 16, 4, 77⟩ (regsOf [(0, 5), (1, 15), (2, 16), (3, -1)]) with
    mem := memSet (emptyWord 77) 0 w []
    space := ⟨[(0, 0)], [0]⟩
    boot := .started }

/-- A running machine with its one frame taken: virtual 8, physical 4. r0 to r3: on the mapped page's last word, on the
unmapped page, first invalid, negative. -/
def full (w : Word) : State :=
  { State.construct ⟨8, 4, 4, 77⟩ (regsOf [(0, 3), (1, 4), (2, 8), (3, -1)]) with
    mem := memSet (emptyWord 77) 0 w []
    space := ⟨[(0, 0)], [0]⟩
    boot := .started }

def nop : Word := ⟨0x00, -1, -1, 0⟩

theorem witness_DecodeKeepsTagAndUsedFields :
    decode ⟨0x18, 9, 0, -7⟩ = .instr (.jmpigt 9 0 (-7)) ∧
    usesRa 0x18 = true ∧ usesRb 0x18 = true ∧ usesP 0x18 = true := by decide

theorem witness_UnusedFieldsAreIgnored :
    decode ⟨0x12, -1, 0, 5⟩ = .instr (.jmpigk 0 5) ∧ usesRa 0x12 = false ∧
    decode ⟨0x12, 12345, 0, 5⟩ = .instr (.jmpigk 0 5) := by decide

theorem witness_DecodeAcceptsExactlyLegalWords :
    decode ⟨0x1A, 10, 10, 0⟩ = .instr .stop ∧ decode ⟨0x08, 9, 0, 0⟩ = .instr (.add 9 0) ∧
    decode ⟨0x08, 10, 0, 0⟩ = .rejected (.raOutOfRange 10) ∧
    decode ⟨0x08, 9, -1, 0⟩ = .rejected (.rbOutOfRange (-1)) := by decide

theorem witness_ReferenceLayoutHoldsTheFourFields :
    0x1B ≤ (⟨0x1B, 0, 0, 0⟩ : Word).op.toNat ∧ 0x1B ≤ (⟨0xFF, 0, 0, 0⟩ : Word).op.toNat := by decide

/-- `p`, and the address in `rb`: first and last valid, first invalid, negative; an unmapped page with a free frame,
and one without. -/
theorem witness_LoadsReadThePayloadAtTheAddress :
    (roomy nop).config.accepted = true ∧ (full nop).config.accepted = true ∧
    Accessible 0 (roomy nop) ∧ Accessible 15 (roomy nop) ∧ ¬ Accessible 16 (roomy nop) ∧
    ¬ Accessible (-1) (roomy nop) ∧ Accessible 3 (full nop) ∧ ¬ Accessible 4 (full nop) ∧
    Accessible (readReg 1 (roomy nop)) (roomy nop) ∧ ¬ Accessible (readReg 2 (roomy nop)) (roomy nop) :=
  ⟨by decide, by decide, accessible_of (by decide) (by decide), accessible_of (by decide) (by decide),
    not_accessible_of (by decide) (by decide), not_accessible_of (by decide) (by decide),
    accessible_of (by decide) (by decide), not_accessible_of (by decide) (by decide),
    accessible_of (by decide) (by decide), not_accessible_of (by decide) (by decide)⟩

/-- The same for the addresses of STD (`p`) and STX (`ra`). -/
theorem witness_StoresReplaceTheWholeSlot :
    (roomy nop).config.accepted = true ∧ (full nop).config.accepted = true ∧
    Accessible 15 (roomy nop) ∧ ¬ Accessible 16 (roomy nop) ∧
    Accessible (readReg 0 (full nop)) (full nop) ∧ ¬ Accessible (readReg 1 (full nop)) (full nop) ∧
    ¬ Accessible (readReg 3 (full nop)) (full nop) :=
  ⟨by decide, by decide, accessible_of (by decide) (by decide), not_accessible_of (by decide) (by decide),
    accessible_of (by decide) (by decide), not_accessible_of (by decide) (by decide),
    not_accessible_of (by decide) (by decide)⟩

theorem witness_FaultingDataAccessCommitsNothing :
    (roomy nop).config.accepted = true ∧ ¬ Accessible 16 (roomy nop) ∧ readReg 2 (roomy nop) = 16 ∧
    (full nop).config.accepted = true ∧ ¬ Accessible 4 (full nop) ∧ readReg 1 (full nop) = 4 ∧
    (∃ ra, Instr.ldd 9 16 = .ldd ra 16) ∧ (∃ ra, Instr.std 9 4 = .std ra 4) ∧
    (∃ ra rb, Instr.ldx 9 2 = .ldx ra rb ∧ 16 = readReg rb (roomy nop)) ∧
    (∃ ra rb, Instr.stx 1 9 = .stx ra rb ∧ 4 = readReg ra (full nop)) :=
  ⟨by decide, not_accessible_of (by decide) (by decide), by decide, by decide,
    not_accessible_of (by decide) (by decide), by decide, ⟨9, rfl⟩, ⟨9, rfl⟩, ⟨9, 2, rfl, by decide⟩,
    ⟨1, 9, rfl, by decide⟩⟩

/-- Both ends of the range, for each of the five instructions: 32767 and -32767 are in, 32768 and -32768 out. -/
theorem witness_OverflowHaltsOnlyAfterTheInstructionCompletes :
    ((bench 1 ⟨0x08, 0, 1, -1⟩ [(0, 32766), (1, 1)] []).pf = .none ∧
      executing (bench 1 ⟨0x08, 0, 1, -1⟩ [(0, 32766), (1, 1)] []) = some (.add 0 1) ∧
      ArithmeticOf (.add 0 1) (bench 1 ⟨0x08, 0, 1, -1⟩ [(0, 32766), (1, 1)] []) 0 32767) ∧
    ((bench 1 ⟨0x09, 0, 1, -1⟩ [(0, -32767), (1, 1)] []).pf = .none ∧
      executing (bench 1 ⟨0x09, 0, 1, -1⟩ [(0, -32767), (1, 1)] []) = some (.sub 0 1) ∧
      ArithmeticOf (.sub 0 1) (bench 1 ⟨0x09, 0, 1, -1⟩ [(0, -32767), (1, 1)] []) 0 (-32768)) ∧
    ((bench 1 ⟨0x0A, 0, 1, -1⟩ [(0, 65536), (1, 65536)] []).pf = .none ∧
      executing (bench 1 ⟨0x0A, 0, 1, -1⟩ [(0, 65536), (1, 65536)] []) = some (.mult 0 1) ∧
      ArithmeticOf (.mult 0 1) (bench 1 ⟨0x0A, 0, 1, -1⟩ [(0, 65536), (1, 65536)] []) 0 4294967296) ∧
    ((bench 1 ⟨0x0B, 0, -1, 1⟩ [(0, 32767)] []).pf = .none ∧
      executing (bench 1 ⟨0x0B, 0, -1, 1⟩ [(0, 32767)] []) = some (.addi 0 1) ∧
      ArithmeticOf (.addi 0 1) (bench 1 ⟨0x0B, 0, -1, 1⟩ [(0, 32767)] []) 0 32768) ∧
    ((bench 1 ⟨0x0C, 0, -1, 32767⟩ [(0, 0)] []).pf = .none ∧
      executing (bench 1 ⟨0x0C, 0, -1, 32767⟩ [(0, 0)] []) = some (.subi 0 32767) ∧
      ArithmeticOf (.subi 0 32767) (bench 1 ⟨0x0C, 0, -1, 32767⟩ [(0, 0)] []) 0 (-32767)) :=
  ⟨⟨by decide, by decide, .inl ⟨1, rfl, by decide⟩⟩,
    ⟨by decide, by decide, .inr (.inl ⟨1, rfl, by decide⟩)⟩,
    ⟨by decide, by decide, .inr (.inr (.inl ⟨1, rfl, by decide⟩))⟩,
    ⟨by decide, by decide, .inr (.inr (.inr (.inl ⟨1, rfl, by decide⟩)))⟩,
    ⟨by decide, by decide, .inr (.inr (.inr (.inr ⟨32767, rfl, by decide⟩)))⟩⟩

theorem witness_JmpimJumpsThroughMemory :
    (roomy nop).config.accepted = true ∧ Accessible 15 (roomy nop) ∧ ¬ Accessible 16 (roomy nop) ∧
    (full nop).config.accepted = true ∧ ¬ Accessible 4 (full nop) :=
  ⟨by decide, accessible_of (by decide) (by decide), not_accessible_of (by decide) (by decide), by decide,
    not_accessible_of (by decide) (by decide)⟩

/-- Each of the three forms with its condition holding and failing, on an accessible address and on one that is not. -/
theorem witness_ConditionalJumpsThroughMemoryTranslateOnlyWhenTaken :
    (roomy nop).config.accepted = true ∧ Accessible 15 (roomy nop) ∧ ¬ Accessible 16 (roomy nop) ∧
    ((encode (.jmpigm 0 15)).op = 0x15 ∧ (True ↔ 0 < (readReg 0 (roomy nop)).toInt)) ∧
    ((encode (.jmpigm 3 16)).op = 0x15 ∧ (False ↔ 0 < (readReg 3 (roomy nop)).toInt)) ∧
    ((encode (.jmpilm 3 15)).op = 0x16 ∧ (True ↔ (readReg 3 (roomy nop)).toInt < 0)) ∧
    ((encode (.jmpilm 0 16)).op = 0x16 ∧ (False ↔ (readReg 0 (roomy nop)).toInt < 0)) ∧
    ((encode (.jmpiem 4 15)).op = 0x17 ∧
      (True ↔ (readReg 4 (machine ⟨16, 16, 4, 77⟩ 0 [(4, 0)] [])).toInt = 0)) ∧
    ((encode (.jmpiem 0 16)).op = 0x17 ∧ (False ↔ (readReg 0 (roomy nop)).toInt = 0)) :=
  ⟨by decide, accessible_of (by decide) (by decide), not_accessible_of (by decide) (by decide), by decide, by decide,
    by decide, by decide, by decide, by decide⟩

theorem witness_EmptyOnlyAdvancesThePc :
    executing (roomy ⟨0x00, 10, -1, 5⟩) = some .empty ∧ (roomy ⟨0x00, 10, -1, 5⟩).pf = .none := by decide

theorem witness_SyscallReadAndInvalidSelectorsHaveNoOtherEffect :
    let m := fun sel => machine ⟨16, 16, 4, 77⟩ 0 [(8, sel), (9, -7)] []
    readReg 8 (m 1) = 1 ∧ (readReg 8 (m 0) ≠ 1 ∧ readReg 8 (m 0) ≠ 2) ∧ (readReg 8 (m 3) ≠ 1 ∧ readReg 8 (m 3) ≠ 2) ∧
    (readReg 8 (m (-1)) ≠ 1 ∧ readReg 8 (m (-1)) ≠ 2) := by decide

theorem witness_DataWordsFaultWhenFetched :
    cpuRuns (roomy ⟨0x01, 50, -1, 7⟩) = true ∧
    fetched (roomy ⟨0x01, 50, -1, 7⟩) = some ⟨0x01, 50, -1, 7⟩ := by decide

/-- Selector 1, selector 2 on an accessible address and on one that is not, and the selectors on either side. -/
theorem witness_SyscallDispatchesOnR8 :
    let m := fun sel arg => machine ⟨16, 16, 4, 77⟩ 0 [(8, sel), (9, arg)] []
    (m 1 (-7)).config.accepted = true ∧ readReg 8 (m 1 (-7)) = 1 ∧
    (readReg 8 (m 2 15) = 2 ∧ Accessible (readReg 9 (m 2 15)) (m 2 15)) ∧
    (readReg 8 (m 2 16) = 2 ∧ ¬ Accessible (readReg 9 (m 2 16)) (m 2 16)) ∧
    (readReg 8 (m 0 0) ≠ 1 ∧ readReg 8 (m 0 0) ≠ 2) ∧ (readReg 8 (m 3 0) ≠ 1 ∧ readReg 8 (m 3 0) ≠ 2) :=
  ⟨by decide, by decide, ⟨by decide, accessible_of (by decide) (by decide)⟩,
    ⟨by decide, not_accessible_of (by decide) (by decide)⟩, by decide, by decide⟩

theorem witness_StopHaltsWithoutTheInterruptController :
    executing (roomy ⟨0x1A, -1, -1, -1⟩) = some .stop ∧ (roomy ⟨0x1A, -1, -1, -1⟩).pf = .none := by decide

theorem witness_StepRunsTheDecodedInstruction :
    cpuRuns (roomy ⟨0x02, 3, 99, 5⟩) = true ∧ translated (roomy ⟨0x02, 3, 99, 5⟩).pc (roomy ⟨0x02, 3, 99, 5⟩) = some 0 ∧
    decode (physRead 0 (roomy ⟨0x02, 3, 99, 5⟩)) = .instr (.ldi 3 5) := by decide

/-- A pc past the end, a negative one, and one on a page that no frame is left for. -/
theorem witness_FetchFaultChangesOnlyPf :
    let m := fun c pc => machine c pc [] [(0, nop)]
    let small : Configuration := ⟨8, 4, 4, 77⟩
    ((m small 8).config.accepted = true ∧ cpuRuns (m small 8) = true ∧ ¬ Accessible (m small 8).pc (m small 8)) ∧
    (cpuRuns (m small (-1)) = true ∧ ¬ Accessible (m small (-1)).pc (m small (-1))) ∧
    (cpuRuns (m small 4) = true ∧ ¬ Accessible (m small 4).pc (m small 4)) :=
  ⟨⟨by decide, by decide, not_accessible_of (by decide) (by decide)⟩,
    ⟨by decide, not_accessible_of (by decide) (by decide)⟩, ⟨by decide, not_accessible_of (by decide) (by decide)⟩⟩

/-- An unrecognized tag, a data word, each register field out of range; and Words that execute, at the boundaries. -/
theorem witness_IllegalWordsRaiseInvalidInstruction :
    (∀ w ∈ [(⟨0x1B, 0, 0, 0⟩ : Word), ⟨0x01, 0, 0, 0⟩, ⟨0x02, 10, 0, 0⟩, ⟨0x07, 0, -1, 0⟩],
      cpuRuns (roomy w) = true ∧ fetched (roomy w) = some w ∧
      (0x1A < w.op.toNat ∨ w.op = 0x01 ∨ (usesRa w.op = true ∧ ¬ (0 ≤ w.ra.toInt ∧ w.ra.toInt < 10)) ∨
        (usesRb w.op = true ∧ ¬ (0 ≤ w.rb.toInt ∧ w.rb.toInt < 10)))) ∧
    (∀ w ∈ [(⟨0x1A, 10, 10, 0⟩ : Word), ⟨0x00, 10, 10, 0⟩, ⟨0x02, 9, -1, 0⟩, ⟨0x07, 0, 9, 0⟩],
      cpuRuns (roomy w) = true ∧ fetched (roomy w) = some w ∧
      ¬ (0x1A < w.op.toNat ∨ w.op = 0x01 ∨ (usesRa w.op = true ∧ ¬ (0 ≤ w.ra.toInt ∧ w.ra.toInt < 10)) ∨
        (usesRb w.op = true ∧ ¬ (0 ≤ w.rb.toInt ∧ w.rb.toInt < 10)))) := by decide

theorem witness_EndOfCycleCheckLogsAndHalts :
    (roomy nop).pf = .none ∧ (raise .overflow (roomy nop)).pf ≠ .none ∧ cpuRuns (roomy nop) = true ∧
    (∃ t, step (roomy nop) = .next t ∧ goesOn 1 t = true) :=
  ⟨by decide, by decide, by decide, exists_of_after (by decide)⟩

/-- One cycle for each kind of fault, and both places an InvalidAddress comes from. -/
theorem witness_LoggedPcOfEachFault :
    let ovf := machine ⟨16, 16, 4, 77⟩ 0 [(0, 32767)] [(0, ⟨0x0B, 0, -1, 1⟩)]
    let sys := machine ⟨16, 16, 4, 77⟩ 0 [(8, 2), (9, 16)] [(0, ⟨0x19, -1, -1, -1⟩)]
    (cpuRuns ovf = true ∧ ovf.pf = .none ∧ ∃ t, step ovf = .next t ∧ faulted .overflow 1 t = true) ∧
    (cpuRuns (roomy ⟨0x1B, 0, 0, 0⟩) = true ∧ (roomy ⟨0x1B, 0, 0, 0⟩).pf = .none ∧
      ∃ t, step (roomy ⟨0x1B, 0, 0, 0⟩) = .next t ∧ faulted .invalidInstruction 0 t = true) ∧
    (executing (roomy ⟨0x04, 0, 2, -1⟩) ≠ some .syscall ∧ (roomy ⟨0x04, 0, 2, -1⟩).pf = .none ∧
      ∃ t, step (roomy ⟨0x04, 0, 2, -1⟩) = .next t ∧ faulted .invalidAddress 0 t = true) ∧
    (executing sys = some .syscall ∧ sys.pf = .none ∧
      ∃ t, step sys = .next t ∧ faulted .invalidAddress 1 t = true) :=
  ⟨⟨by decide, by decide, exists_of_after (by decide)⟩, ⟨by decide, by decide, exists_of_after (by decide)⟩,
    ⟨by decide, by decide, exists_of_after (by decide)⟩, ⟨by decide, by decide, exists_of_after (by decide)⟩⟩

theorem witness_RunStateMachineTransitions :
    (cpuRuns (roomy nop) = true ∧ (roomy nop).pf = .none ∧ executing (roomy nop) ≠ some .stop ∧
      ∃ t, step (roomy nop) = .next t ∧ goesOn 1 t = true) ∧
    (cpuRuns (roomy ⟨0xFF, 0, 0, 0⟩) = true ∧
      ∃ t, step (roomy ⟨0xFF, 0, 0, 0⟩) = .next t ∧ faulted .invalidInstruction 0 t = true) ∧
    (executing (roomy ⟨0x1A, -1, -1, -1⟩) = some .stop ∧
      ∃ t, step (roomy ⟨0x1A, -1, -1, -1⟩) = .next t ∧ decide (t.status = .halted) = true) ∧
    (setStatus .halted (roomy nop)).status = .halted :=
  ⟨⟨by decide, by decide, by decide, exists_of_after (by decide)⟩, ⟨by decide, exists_of_after (by decide)⟩,
    ⟨by decide, exists_of_after (by decide)⟩, rfl⟩

theorem witness_OnlyStoresChangeMemory :
    ∃ t, step (roomy ⟨0x05, 1, -1, 3⟩) = .next t ∧
      decide (physRead 3 t ≠ physRead 3 (roomy ⟨0x05, 1, -1, 3⟩)) = true :=
  exists_of_after (by decide)

theorem witness_OnlyTheDestinationRegisterChanges :
    ∃ t, step (roomy ⟨0x07, 9, 1, -1⟩) = .next t ∧ decide (readReg 9 t ≠ readReg 9 (roomy ⟨0x07, 9, 1, -1⟩)) = true :=
  exists_of_after (by decide)

theorem witness_TraceOnlyGrowsAndOnlySyscallWriteOutputs :
    let sys := machine ⟨16, 16, 4, 77⟩ 0 [(8, 2), (9, 15)] [(0, ⟨0x19, -1, -1, -1⟩)]
    sys.pf = .none ∧ ∃ t, step sys = .next t ∧ decide (t.trace = sys.trace ++ [.out 77]) = true :=
  ⟨by decide, exists_of_after (by decide)⟩

theorem witness_ConfigurationNeverChanges : ∃ t, step (roomy nop) = .next t ∧ goesOn 1 t = true :=
  exists_of_after (by decide)

/-- The first frame, a hole, the last frame; and no frame. -/
theorem witness_AllocateIsFirstFit :
    ((0 : Nat) < 3 ∧ 0 ∉ ([] : Occupancy) ∧ ∀ g, g < 0 → g ∈ ([] : Occupancy)) ∧
    (1 < 4 ∧ 1 ∉ [0, 2] ∧ ∀ g, g < 1 → g ∈ [0, 2]) ∧
    (2 < 3 ∧ 2 ∉ [0, 1] ∧ ∀ g, g < 2 → g ∈ [0, 1]) ∧
    (∀ f, f < 3 → f ∈ [0, 1, 2]) := by decide

/-- The address space of `roomy` is sound: it is one translation from the empty one. -/
theorem spaceInv_roomy (w : Word) : SpaceInv (roomy w).config (roomy w).space := by
  have h := translate_inv (c := ⟨16, 16, 4, 77⟩) (spaceInv_empty _) 0
  rw [show (AddressSpace.translate ⟨16, 16, 4, 77⟩ 0 ⟨[], []⟩).2 = ⟨[(0, 0)], [0]⟩ by decide] at h
  exact h

/-- The address space of `full` is sound. -/
theorem spaceInv_full (w : Word) : SpaceInv (full w).config (full w).space := by
  have h := translate_inv (c := ⟨8, 4, 4, 77⟩) (spaceInv_empty _) 0
  rw [show (AddressSpace.translate ⟨8, 4, 4, 77⟩ 0 ⟨[], []⟩).2 = ⟨[(0, 0)], [0]⟩ by decide] at h
  exact h

theorem witness_TranslateAnswersFrameTimesPageSizePlusOffset :
    (roomy nop).config.accepted = true ∧ SpaceInv (roomy nop).config (roomy nop).space ∧
    Accessible 0 (roomy nop) ∧ Accessible 15 (roomy nop) :=
  ⟨by decide, spaceInv_roomy _, accessible_of (by decide) (by decide), accessible_of (by decide) (by decide)⟩

theorem witness_TranslateSucceedsExactlyOnAccessibleAddresses :
    (full nop).config.accepted = true ∧ translated 4 (full nop) = none ∧ translated 8 (full nop) = none ∧
    0 ≤ (3 : I32).toInt ∧ (3 : I32).toInt < ((full nop).config.virtualSize : Int) ∧
    (∃ f, frameOf (pageOf (full nop).config 3).toNat (full nop).space.pageTable = some f) :=
  ⟨by decide, by decide, by decide, by decide, by decide, 0, by decide⟩

theorem witness_FramesAreHandedOutInOrder :
    SpaceInv (roomy nop).config (roomy nop).space ∧ (translated 15 (roomy nop)).isSome = true ∧
    ∀ f, frameOf (pageOf (roomy nop).config 15).toNat (roomy nop).space.pageTable ≠ some f :=
  ⟨spaceInv_roomy _, by decide, fun f h => by
    rw [show frameOf (pageOf (roomy nop).config 15).toNat (roomy nop).space.pageTable = none by decide] at h
    cases h⟩

/-- A machine that translates 15 and then runs two cycles. -/
theorem witness_TranslationIsConsistentAlongARun :
    translated 15 (roomy nop) = some 7 ∧
    ∃ t : State, Sys2Proof.core.run 2 (afterTranslate 15 (roomy nop)) = .next t ∧ decide (t.pc = 2) = true :=
  ⟨by decide, exists_of_afterRun (by decide)⟩

/-- A run that binds a second page (LDD r9, 15), and starts with one bound. -/
theorem witness_BindingsArePermanentAlongARun :
    frameOf 0 (roomy ⟨0x03, 9, -1, 15⟩).space.pageTable = some 0 ∧ 0 ∈ (roomy ⟨0x03, 9, -1, 15⟩).space.occupied ∧
    ∃ t : State, Sys2Proof.core.run 2 (roomy ⟨0x03, 9, -1, 15⟩) = .next t ∧
      decide (frameOf 3 t.space.pageTable = some 1) = true :=
  ⟨by decide, by decide, exists_of_afterRun (by decide)⟩

theorem witness_ExhaustionIsPermanentAlongARun :
    (∀ f, f < (full nop).config.frameCount → f ∈ (full nop).space.occupied) ∧
    (∃ t : State, Sys2Proof.core.run 2 (full nop) = .next t ∧ decide (t.pc = 2) = true) ∧
    (∀ f, frameOf (pageOf (full nop).config 4).toNat (full nop).space.pageTable ≠ some f) ∧
    translated 3 (full nop) = some 3 :=
  ⟨by decide, exists_of_afterRun (by decide), fun f h => (by
    rw [show frameOf (pageOf (full nop).config 4).toNat (full nop).space.pageTable = none by decide] at h
    cases h), by decide⟩

theorem witness_PhysicalMemoryReadsTheLastWrite :
    Memory.wf (roomy ⟨0x02, 0, -1, 9⟩).empty (roomy ⟨0x02, 0, -1, 9⟩).mem = true ∧
    (roomy ⟨0x02, 0, -1, 9⟩).mem = [(0, ⟨0x02, 0, -1, 9⟩)] := by decide

/-- `roomy` is a safe state, whatever Word stands at its pc. -/
theorem safe_roomy (w : Word) : Safe (roomy w) where
  config_accepted := show Configuration.accepted ⟨16, 16, 4, 77⟩ = true by decide
  space := spaceInv_roomy w
  mem := by
    have hm : (roomy w).mem = memSet (emptyWord 77) 0 w [] := rfl
    refine ⟨by rw [hm]; exact wf_memSet _ _ _ rfl, fun pa v h => ?_⟩
    rw [hm] at h
    rcases lookup_memSet h with ⟨rfl, _⟩ | h
    · show 0 < 16
      decide
    · cases h
  run := ⟨fun _ => ⟨rfl, fun e h => nomatch h⟩, (fun h => by cases h), (by intro h; cases h), fun _ => rfl⟩

theorem witness_StepKeepsTheInvariant :
    Safe (roomy ⟨0x05, 1, -1, 15⟩) ∧ ∃ t, step (roomy ⟨0x05, 1, -1, 15⟩) = .next t ∧
      (goesOn 1 t && decide (t.mem.length = 2)) = true :=
  ⟨safe_roomy _, exists_of_after (by decide)⟩

theorem witness_ResetIsSafe : (Configuration.mk 12 6 3 77).accepted = true := by decide

/-- Each port accepting, on a safe state. -/
theorem witness_PortsKeepTheInvariant :
    let s := State.construct ⟨16, 16, 4, 77⟩ (regsOf [])
    (∃ t, portConfig 16 16 4 (regsOf []) 77 = .next t) ∧ Safe s ∧ (∃ t, portLoad (stops 5) s = .next t) ∧
    (∃ t, portStart 3 { s with boot := .loaded } = .next t) ∧ (∃ t words, portDump (-1) 17 s = .next (t, words)) := by
  refine ⟨⟨_, rfl⟩, ⟨rfl, spaceInv_empty _, ⟨rfl, fun pa w h => by cases h⟩, ?_⟩, ⟨_, rfl⟩, ⟨_, rfl⟩, ⟨_, _, rfl⟩⟩
  exact ⟨fun _ => ⟨rfl, fun e h => nomatch h⟩, (fun h => by cases h), (by intro h; cases h), fun _ => rfl⟩

/-- The loaded state that START is given in the witness before is safe as well. -/
theorem witness_PortsKeepTheInvariant_start :
    Safe { State.construct ⟨16, 16, 4, 77⟩ (regsOf []) with boot := .loaded } :=
  ⟨rfl, spaceInv_empty _, ⟨rfl, fun pa w h => by cases h⟩,
    ⟨fun _ => ⟨rfl, fun e h => nomatch h⟩, (fun h => by cases h), (by intro h; cases h), fun _ => rfl⟩⟩

/-- A run that logs its terminal event, and goes on as Halted. -/
theorem witness_TerminalEventIsOnceAndLast :
    Safe (roomy ⟨0x1A, -1, -1, -1⟩) ∧ ∃ t : State, Sys2Proof.core.run 3 (roomy ⟨0x1A, -1, -1, -1⟩) = .next t ∧
      decide (t.trace = [] ++ Event.stopNote :: [] ∧ Event.terminal .stopNote = true) = true :=
  ⟨safe_roomy _, exists_of_afterRun (by decide)⟩

/-- A state halted with the given last event. -/
def haltedWith (f : PendingFault) (e : Event) : State :=
  { roomy nop with status := .halted, pf := f, trace := [.invalidParam, e] }

theorem safe_haltedWith {f : PendingFault} {e : Event} (hs : f ≠ .stop)
    (h : e = .stopNote ∧ f = .none ∨ e = .interrupt f 0 ∧ f ≠ .none) : Safe (haltedWith f e) := by
  obtain ⟨h1, h2, h3, _⟩ := safe_roomy nop
  refine ⟨h1, h2, ⟨h3.1, h3.2⟩, ⟨(fun h => by cases h), fun _ => ⟨[.invalidParam], e, rfl, ?_, h⟩, hs, fun h => ?_⟩⟩
  · intro d hd
    rw [List.mem_singleton.mp hd]
    rfl
  · exact absurd rfl h

theorem witness_StatusTellsTheHaltPathsApart :
    (Safe (haltedWith .none .stopNote) ∧ portStatus (haltedWith .none .stopNote) = (.halted, .none)) ∧
    (Safe (haltedWith .overflow (.interrupt .overflow 0)) ∧ PendingFault.overflow ≠ .none ∧
      portStatus (haltedWith .overflow (.interrupt .overflow 0)) = (.halted, .overflow)) ∧
    (haltedWith .none .stopNote).status = .halted ∧ (haltedWith .overflow (.interrupt .overflow 0)).status = .halted ∧
    (Safe (roomy nop) ∧ (roomy nop).status = .running ∧ portStatus (roomy nop) = (.running, .none)) :=
  ⟨⟨safe_haltedWith (by decide) (.inl ⟨rfl, rfl⟩), rfl⟩,
    ⟨safe_haltedWith (by decide) (.inr ⟨rfl, by decide⟩), by decide, rfl⟩, rfl, rfl, ⟨safe_roomy _, rfl, rfl⟩⟩

/-- The condition of `ConfigAcceptsExactlyTheLegalSizes`. -/
def legal (v p g : Int) : Bool :=
  decide (0 < v ∧ 0 < p ∧ 0 < g ∧ v % g = 0 ∧ p % g = 0 ∧ v ≤ 2147483647 ∧ p ≤ 2147483647 ∧ g ≤ 2147483647)

/-- The smallest and the largest sizes accepted, and one of each kind refused. -/
theorem witness_ConfigAcceptsExactlyTheLegalSizes :
    legal 1 1 1 ∧ legal 2147483647 2147483647 2147483647 ∧ legal 2147483647 1 1 ∧ ¬ legal 2147483648 1 1 ∧
    ¬ legal 0 8 4 ∧ ¬ legal 8 (-4) 4 ∧ ¬ legal 8 8 0 ∧ ¬ legal 10 8 4 ∧ ¬ legal 8 10 4 := by decide

theorem witness_ResetLeavesTheStatedValues : ∃ s, portConfig 12 6 3 (regsOf [(4, -5)]) 77 = .next s :=
  ⟨_, rfl⟩

/-- An image that fits exactly, one Word too many for the frames, and one too many for the pages. -/
theorem witness_LoadFromResetSucceedsExactlyWhenTheImageFits :
    (Configuration.mk 16 8 4 77).accepted = true ∧ (stops 8).length ≤ 16 ∧ (stops 8).length ≤ 8 ∧
    ¬ ((stops 9).length ≤ 16 ∧ (stops 9).length ≤ 8) ∧
    (Configuration.mk 8 16 4 77).accepted = true ∧ ¬ ((stops 9).length ≤ 8 ∧ (stops 9).length ≤ 16) ∧
    (stops 8)[7]? = some ⟨0x1A, -1, -1, -1⟩ := by decide

theorem witness_StartIsAcceptedOnceAfterASuccessfulLoad :
    (loadWords 0 (stops 5) (State.construct ⟨16, 16, 4, 77⟩ (regsOf []))).boot = .loaded ∧
    (loadWords 0 (stops 5) (State.construct ⟨16, 16, 4, 77⟩ (regsOf []))).status = .running ∧
    (loadWords 0 (stops 9) (State.construct ⟨16, 8, 4, 77⟩ (regsOf []))).boot ≠ .loaded ∧
    State.reset.boot ≠ .started ∧ State.reset.boot ≠ .loaded := by decide

/-- A running machine, one before START and one halted; an address on either side of the range; and a valid address
that answers Fail beside a mapped page, no frame being free. -/
theorem witness_DumpReadsTheRangeAndOnlyBindsPages :
    (roomy nop).config.accepted = true ∧ cpuRuns (roomy nop) = true ∧
    cpuRuns (State.construct ⟨16, 16, 4, 77⟩ (regsOf [])) = false ∧ cpuRuns (setStatus .halted (roomy nop)) = false ∧
    (dumpWords (-1) 3 (setStatus .halted (roomy nop))).2[0]? = some none ∧
    (dumpWords (-1) 3 (setStatus .halted (roomy nop))).2[1]? = some (some nop) ∧
    (full nop).config.accepted = true ∧ cpuRuns (setStatus .halted (full nop)) = false ∧
    frameOf 0 (setStatus .halted (full nop)).space.pageTable = some 0 ∧
    (dumpWords 3 6 (setStatus .halted (full nop))).2[1]? = some none ∧
    (3 : I32).toInt + ((1 : Nat) : Int) < ((full nop).config.virtualSize : Int) ∧
    (dumpWords 3 6 (setStatus .halted (full nop))).2[5]? = some none := by decide

/-- A Halted safe state; and the run from it goes on as it is. -/
theorem witness_FinalObservationIsThatOfTheHaltedState :
    (haltedWith .none .stopNote).status = .halted ∧ (∃ o, observe (haltedWith .none .stopNote) = some o) ∧
    Safe (haltedWith .none .stopNote) ∧
    (∃ t : State, Sys2Proof.core.run 2 (haltedWith .none .stopNote) = .next t ∧ decide (t.status = .halted) = true) :=
  ⟨rfl, ⟨_, rfl⟩, safe_haltedWith (by decide) (.inl ⟨rfl, rfl⟩), exists_of_afterRun (by decide)⟩

/-- A label on the second of three lines. -/
theorem witness_AssembledInstructionIsItsEncoding :
    "loop" ∈ (AsmLine.mk ["loop"] "STOP" []).labels ∧
    ∀ l ∈ [AsmLine.mk ["first"] "EMPTY" []], "loop" ∉ l.labels := by decide

theorem witness_StandaloneDriverStopsAtItsFirstFailure :
    (driverRun ⟨8, 4, 4, 77⟩ [0, 1] ⟨[], []⟩).stoppedAt = none ∧
    (driverRun ⟨8, 4, 4, 77⟩ [0, 4, 1] ⟨[], []⟩).stoppedAt = some 4 ∧
    (driverRun ⟨8, 4, 4, 77⟩ [0, 8] ⟨[], []⟩).stoppedAt = some 8 ∧
    ([0, 4, 1] : List I32)[0]? = some 0 ∧ (driverRun ⟨8, 4, 4, 77⟩ [0, 4, 1] ⟨[], []⟩).answered[0]? = some 0 ∧
    frameOf 0 (AddressSpace.pageTable ⟨[(0, 0)], [0]⟩) = some 0 := by decide

end Sys2Proof.Tests
end

section
/-! SUPPORT. The CONFIG port and the state that it constructs (10_state.md R36, 70_reset_and_hazards.md R130, R131). -/

namespace Sys2Proof.Machine

/-- A state that CONFIG answers is the construction of an accepted configuration with the given EMPTY_P. -/
theorem exists_construct_of_portConfig {v p g : Int} {r : Vector I32 Config.nRegs} {e : I32} {s : State}
    (h : portConfig v p g r e = .next s) :
    ∃ c : Configuration, c.accepted = true ∧ c.emptyP = e ∧ s = State.construct c r := by
  unfold portConfig at h
  split at h
  · next hok =>
    obtain ⟨-, -, -, hacc⟩ := hok
    cases h
    exact ⟨_, hacc, rfl, rfl⟩
  · cases h

section Construct

variable (c : Configuration) (r : Vector I32 Config.nRegs)

@[simp] theorem construct_pf : (State.construct c r).pf = .none := rfl
@[simp] theorem construct_status : (State.construct c r).status = .running := rfl
@[simp] theorem construct_space : (State.construct c r).space = ⟨[], []⟩ := rfl
@[simp] theorem construct_trace : (State.construct c r).trace = [] := rfl
@[simp] theorem readReg_construct (i : Reg) : readReg i (State.construct c r) = r[i] := rfl
@[simp] theorem physRead_construct (pa : Nat) : physRead pa (State.construct c r) = emptyWord c.emptyP := rfl

end Construct

/-- The page table of no entry maps no page. -/
@[simp] theorem ptEntry_nil (page : Nat) : ptEntry page [] = Config.unmapped := rfl

/-- Settles O49: CONFIG answers a constructed state, and each value of R36 is read off the construction. -/
theorem resetLeavesTheStatedValues : Obligations.ResetLeavesTheStatedValues := by
  unfold Obligations.ResetLeavesTheStatedValues
  intro v p g r e s h
  obtain ⟨c, -, rfl, rfl⟩ := exists_construct_of_portConfig h
  refine ⟨readReg_construct c r, construct_pf c r, construct_status c r, physRead_construct c r, ?_, ?_,
    construct_trace c r⟩
  · intro page
    rw [construct_space]
    exact ptEntry_nil page
  · intro f
    rw [construct_space]
    exact List.not_mem_nil

end Sys2Proof.Machine
end

section
/-! SUPPORT. The frame allocator's two answers, and the exhausted machine: no frame free, now and along every run
(20_memory.md R41, R42). -/

namespace Sys2Proof.Machine

/-! ### The two answers of `Allocate` (20_memory.md R41) -/

section Allocate

variable {frameCount f : Nat} {occ : Occupancy}

theorem allocate_of_firstFree_some (h : firstFree occ 0 frameCount = some f) (pt : PageTable) (page : Nat) :
    allocate frameCount pt occ page = (assign page f pt, occupy f occ, .bound f) := by
  rw [allocate, h]

theorem allocate_of_firstFree_none (h : firstFree occ 0 frameCount = none) (pt : PageTable) (page : Nat) :
    allocate frameCount pt occ page = (pt, occ, .exhausted) := by
  rw [allocate, h]

/-- A free frame with every lower frame occupied is the one that the scan finds. -/
theorem firstFree_of_lowest (hlt : f < frameCount) (hfree : f ∉ occ) (hlow : ∀ g, g < f → g ∈ occ) :
    firstFree occ 0 frameCount = some f :=
  (firstFree_eq_some occ 0 frameCount f).mpr ⟨Nat.zero_le f, by omega, hfree, fun g _ hg => hlow g hg⟩

/-- With every frame occupied the scan finds none. -/
theorem firstFree_of_all_occupied (hfull : ∀ g, g < frameCount → g ∈ occ) : firstFree occ 0 frameCount = none :=
  (firstFree_eq_none occ 0 frameCount).mpr fun g _ hg => hfull g (by omega)

end Allocate

@[simp] theorem frameOf_assign_same (page f : Nat) (pt : PageTable) : frameOf page (assign page f pt) = some f :=
  lookup_assign_same page f pt

theorem frameOf_assign_ne {page q : Nat} (h : q ≠ page) (f : Nat) (pt : PageTable) :
    frameOf q (assign page f pt) = frameOf q pt :=
  lookup_assign_ne page q f pt h

/-! ### A machine with no free frame (20_memory.md R42) -/

/-- No frame of the machine is free. -/
def Exhausted (s : State) : Prop :=
  firstFree s.space.occupied 0 s.config.frameCount = none

/-- The configuration and the address space are all that a translation reads. -/
theorem translated_congr {s t : State} (hc : t.config = s.config) (hs : t.space = s.space) (va : I32) :
    translated va t = translated va s := by
  rw [translated, hc, hs, translated]

/-- An exhausted machine cannot translate an address whose page is unmapped. -/
theorem translated_of_unmapped {s : State} (hx : Exhausted s) {va : I32}
    (hun : frameOf (pageOf s.config va).toNat s.space.pageTable = none) : translated va s = none := by
  unfold translated
  rcases translate_cases s.config va s.space with ⟨_, e⟩ | ⟨_, f, hf, _⟩ | ⟨_, _, f, hf, _⟩ | ⟨_, _, _, e⟩
  · rw [e]
  · cases hun.symm.trans hf
  · cases hx.symm.trans hf
  · rw [e]

/-- A step of an exhausted machine leaves its address space: only the translator writes it, and it binds nothing. -/
theorem step_space_of_exhausted {s t : State} (hx : Exhausted s) (h : step s = .next t) : t.space = s.space :=
  step_space (P := fun a => a = s.space) (fun _ va ha => ha ▸ translate_exhausted hx va) rfl h

/-- Any number of steps of an exhausted machine leaves its configuration and its address space. -/
theorem run_fixes_space_of_exhausted {k : Nat} {s t : State} (hx : Exhausted s)
    (h : Sys2Proof.core.run k s = .next t) : t.config = s.config ∧ t.space = s.space := by
  refine run_keeps (P := fun u => u.config = s.config ∧ u.space = s.space) ?_ ⟨rfl, rfl⟩ h
  rintro u v ⟨hc, hs⟩ huv
  have hu : Exhausted u := by rw [Exhausted, hc, hs]; exact hx
  exact ⟨(step_fixed huv).1.trans hc, (step_space_of_exhausted hu huv).trans hs⟩

/-- Settles O41: from an exhausted state a run leaves the address space as it is, so every address translates at its
end as it does at its start, and an unmapped page stays out of reach. -/
theorem exhaustionIsPermanentAlongARun : Obligations.ExhaustionIsPermanentAlongARun := by
  unfold Obligations.ExhaustionIsPermanentAlongARun
  intro va k s t hfull hrun
  have hx : Exhausted s := firstFree_of_all_occupied hfull
  obtain ⟨hc, hs⟩ := run_fixes_space_of_exhausted hx hrun
  have hsame : translated va t = translated va s := translated_congr hc hs va
  refine ⟨allocate_of_firstFree_none hx s.space.pageTable, fun hun => ?_, fun pa hpa => hsame.trans hpa⟩
  have hfail : translated va s = none := translated_of_unmapped hx (Option.eq_none_iff_forall_ne_some.mpr hun)
  have hfail' : translated va t = none := hsame.trans hfail
  exact ⟨hfail, afterTranslate_of_none hfail, hfail', afterTranslate_of_none hfail'⟩

/-- Settles O35: the scan finds the lowest free frame, or none, and `Allocate` answers accordingly. -/
theorem allocateIsFirstFit : Obligations.AllocateIsFirstFit := by
  unfold Obligations.AllocateIsFirstFit
  intro frameCount pt occ page
  constructor
  · intro f hlt hfree hlow
    exact ⟨_, _, allocate_of_firstFree_some (firstFree_of_lowest hlt hfree hlow) pt page,
      frameOf_assign_same page f pt, fun q hq => frameOf_assign_ne hq f pt, fun g => mem_occupy f g occ⟩
  · intro hfull
    exact allocate_of_firstFree_none (firstFree_of_all_occupied hfull) pt page

end Sys2Proof.Machine
end

section
/-! SUPPORT. LDI and MOVE: both write one register and advance the pc (40_data_transfer.md R74, R79). -/

namespace Sys2Proof.Machine

theorem exec_ldi (ra : Reg) (p : I32) (s : State) : exec (.ldi ra p) s = .next (advancePc (writeReg ra p s)) := rfl

theorem exec_move (ra rb : Reg) (s : State) :
    exec (.move ra rb) s = .next (advancePc (writeReg ra (readReg rb s) s)) := rfl

/-- A register write frames every other register, and advancing the pc frames them all. -/
theorem sameRegsBut_advancePc_writeReg (ra : Reg) (v : I32) (s : State) :
    SameRegsBut ra s (advancePc (writeReg ra v s)) := by
  intro r hne
  rw [readReg_advancePc, readReg_writeReg_ne s ra r v hne]

/-- The whole effect that LDI and MOVE share, whatever value is written. -/
theorem advancePc_writeReg_effect (ra : Reg) (v : I32) (s : State) :
    let t := advancePc (writeReg ra v s)
    readReg ra t = v ∧ SameRegsBut ra s t ∧ t.pc = s.pc + 1 ∧ SameMemory s t ∧ t.space = s.space ∧
      SameControl s t := by
  refine ⟨?_, sameRegsBut_advancePc_writeReg ra v s, ?_, fun pa => ?_, ?_, ?_⟩
  · rw [readReg_advancePc, readReg_writeReg_same]
  · rw [advancePc_pc, writeReg_pc]
  · rw [physRead_advancePc, physRead_writeReg]
  · rw [advancePc_space, writeReg_space]
  · simp [SameControl]

/-- Settles O8: LDI and MOVE are the same register write and pc advance, of `p` and of the source register's value. -/
theorem ldiAndMoveWriteTheirRegister : Obligations.LdiAndMoveWriteTheirRegister := by
  unfold Obligations.LdiAndMoveWriteTheirRegister
  constructor
  · intro ra p s
    exact ⟨rfl, _, exec_ldi ra p s, advancePc_writeReg_effect ra p s⟩
  · intro ra rb s
    exact ⟨rfl, _, exec_move ra rb s, advancePc_writeReg_effect ra (readReg rb s) s⟩

end Sys2Proof.Machine
end

section
/-! SUPPORT. The five arithmetic instructions: one shared form, `writeResult`, alone and over a whole cycle
(41_arithmetic.md R80 to R87). -/

namespace Sys2Proof.Machine

/-! ### The five instructions and their exact results (R83 to R87) -/

section Instructions

variable (ra rb : Reg) (p : I32) (s : State)

theorem arithmeticOf_add :
    ArithmeticOf (.add ra rb) s ra ((readReg ra s).toInt + (readReg rb s).toInt) :=
  .inl ⟨rb, rfl, rfl⟩

theorem arithmeticOf_sub :
    ArithmeticOf (.sub ra rb) s ra ((readReg ra s).toInt - (readReg rb s).toInt) :=
  .inr (.inl ⟨rb, rfl, rfl⟩)

theorem arithmeticOf_mult :
    ArithmeticOf (.mult ra rb) s ra ((readReg ra s).toInt * (readReg rb s).toInt) :=
  .inr (.inr (.inl ⟨rb, rfl, rfl⟩))

theorem arithmeticOf_addi : ArithmeticOf (.addi ra p) s ra ((readReg ra s).toInt + p.toInt) :=
  .inr (.inr (.inr (.inl ⟨p, rfl, rfl⟩)))

theorem arithmeticOf_subi : ArithmeticOf (.subi ra p) s ra ((readReg ra s).toInt - p.toInt) :=
  .inr (.inr (.inr (.inr ⟨p, rfl, rfl⟩)))

end Instructions

section Effect

variable {i : Instr} {ra : Reg} {n : Int} {s u : State}

/-- A translation writes no register, so the operands, and with them the exact result, stay the same. -/
theorem ArithmeticOf.afterTranslate (h : ArithmeticOf i s ra n) (va : I32) :
    ArithmeticOf i (afterTranslate va s) ra n := by
  simpa only [ArithmeticOf, readReg_afterTranslate] using h

/-- Every arithmetic instruction is the common form at its exact result. -/
theorem exec_of_arithmeticOf (h : ArithmeticOf i s ra n) : exec i s = .next (writeResult ra n s) := by
  rcases h with ⟨rb, rfl, rfl⟩ | ⟨rb, rfl, rfl⟩ | ⟨rb, rfl, rfl⟩ | ⟨p, rfl, rfl⟩ | ⟨p, rfl, rfl⟩ <;> rfl

theorem exists_exec_arithmeticEffect (h : ArithmeticOf i s ra n) :
    ∃ t, exec i s = .next t ∧ ArithmeticEffect ra n s t :=
  ⟨_, exec_of_arithmeticOf h, writeResult_effect ra n s⟩

/-! ### Over a whole cycle (R81, R82; 60_exceptions.md R114) -/

theorem readReg_endOfCycle (r : Reg) (s : State) : readReg r (endOfCycle s) = readReg r s :=
  readReg_congr (endOfCycle_regs s) r

theorem physRead_endOfCycle (pa : Nat) (s : State) : physRead pa (endOfCycle s) = physRead pa s :=
  physRead_congr (endOfCycle_mem s) (endOfCycle_config s) pa

/-- A step that executes an arithmetic instruction: the fetch's binding, the instruction, the end-of-cycle check. -/
theorem step_of_arithmeticOf (hx : executing s = some i) (ha : ArithmeticOf i s ra n) :
    ∃ u, ArithmeticEffect ra n (afterTranslate s.pc s) u ∧ step s = .next (endOfCycle u) := by
  obtain ⟨u, hu, heff⟩ := exists_exec_arithmeticEffect (ha.afterTranslate s.pc)
  exact ⟨u, heff, by rw [step_executing hx, hu, finishCycle]⟩

/-- A result out of range leaves Overflow pending, which the end-of-cycle check logs at the advanced pc as it halts. -/
theorem ArithmeticEffect.endOfCycle_out_of_range (h : ArithmeticEffect ra n s u)
    (hout : ¬ (-32767 ≤ n.bmod (2 ^ 32) ∧ n.bmod (2 ^ 32) ≤ 32767)) :
    (endOfCycle u).pf = .overflow ∧ (endOfCycle u).status = .halted ∧
      (endOfCycle u).trace = s.trace ++ [.interrupt .overflow (s.pc + 1)] := by
  obtain ⟨-, -, hpc, hpf, -, htrace, -⟩ := h
  rw [if_neg hout] at hpf
  have hfault : u.pf ≠ .none := by simp [hpf]
  rw [endOfCycle_fault hfault, hpf, htrace, hpc]
  exact ⟨rfl, rfl, rfl⟩

/-- A result in range: with no fault pending the end-of-cycle check does nothing. -/
theorem ArithmeticEffect.endOfCycle_in_range (h : ArithmeticEffect ra n s u) (hclean : s.pf = .none)
    (hin : -32767 ≤ n.bmod (2 ^ 32) ∧ n.bmod (2 ^ 32) ≤ 32767) :
    (endOfCycle u).pf = .none ∧ (endOfCycle u).status = s.status ∧ (endOfCycle u).trace = s.trace := by
  obtain ⟨-, -, -, hpf, hstatus, htrace, -⟩ := h
  rw [if_pos hin, hclean] at hpf
  rw [endOfCycle_none hpf]
  exact ⟨hpf, hstatus, htrace⟩

end Effect

/-- Settles O14: the cycle is the fetch's binding, the common form and the end-of-cycle check, and the check touches
only the status and the trace, and those only when the result was out of range. -/
theorem overflowHaltsOnlyAfterTheInstructionCompletes :
    Obligations.OverflowHaltsOnlyAfterTheInstructionCompletes := by
  unfold Obligations.OverflowHaltsOnlyAfterTheInstructionCompletes
  intro i ra n s hclean hx ha
  obtain ⟨hruns, -⟩ := executing_eq_some.mp hx
  obtain ⟨-, hrunning⟩ := (cpuRuns_iff s).mp hruns
  obtain ⟨u, heff, hstep⟩ := step_of_arithmeticOf hx ha
  have hout := heff.endOfCycle_out_of_range
  have hin := heff.endOfCycle_in_range hclean
  obtain ⟨hval, hregs, hpc, -, -, -, hconfig, hboot, hspace, hmem⟩ := heff
  refine ⟨endOfCycle u, hstep, ?_, fun r hne => ?_, ?_, fun pa => ?_, ?_, ?_, ?_, hout, fun h => ?_⟩
  · rw [readReg_endOfCycle, hval]
  · rw [readReg_endOfCycle, hregs r hne, readReg_afterTranslate]
  · rw [endOfCycle_pc, hpc, afterTranslate_pc]
  · rw [physRead_endOfCycle, hmem pa, physRead_afterTranslate]
  · rw [endOfCycle_space, hspace]
  · rw [endOfCycle_config, hconfig, afterTranslate_config]
  · rw [endOfCycle_boot, hboot, afterTranslate_boot]
  · obtain ⟨hpf, hstatus, htrace⟩ := hin h
    exact ⟨hpf, hstatus.trans hrunning, htrace⟩

/-- Settles O12: ADD, SUB and MULT are the common form at the sum, the difference and the product. -/
theorem registerArithmeticWrapsAndChecks : Obligations.RegisterArithmeticWrapsAndChecks := by
  unfold Obligations.RegisterArithmeticWrapsAndChecks
  intro ra rb s
  exact ⟨rfl, rfl, rfl, exists_exec_arithmeticEffect (arithmeticOf_add ra rb s),
    exists_exec_arithmeticEffect (arithmeticOf_sub ra rb s), exists_exec_arithmeticEffect (arithmeticOf_mult ra rb s)⟩

/-- Settles O13: ADDI and SUBI are the common form at the sum and the difference with the immediate. -/
theorem immediateArithmeticWrapsAndChecks : Obligations.ImmediateArithmeticWrapsAndChecks := by
  unfold Obligations.ImmediateArithmeticWrapsAndChecks
  intro ra p s
  exact ⟨rfl, rfl, exists_exec_arithmeticEffect (arithmeticOf_addi ra p s),
    exists_exec_arithmeticEffect (arithmeticOf_subi ra p s)⟩

end Sys2Proof.Machine
end

section
/-! SUPPORT. The jumps that use no memory: JMP, and the eight forms of `jumpIf` with an immediate or a register target
(42_control.md R89, R92, R94 to R99, R103). -/

namespace Sys2Proof.Machine

/-! ### The conditions, on signed values (R90) -/

@[simp] theorem isPositive_iff (v : I32) : isPositive v = true ↔ 0 < v.toInt := decide_eq_true_iff
@[simp] theorem isNegative_iff (v : I32) : isNegative v = true ↔ v.toInt < 0 := decide_eq_true_iff
@[simp] theorem isZero_iff (v : I32) : isZero v = true ↔ v.toInt = 0 := decide_eq_true_iff
@[simp] theorem isGreater_iff (a b : I32) : isGreater a b = true ↔ b.toInt < a.toInt := decide_eq_true_iff

/-! ### The instructions as pc writes -/

section Jumps

variable (ra rb : Reg) (p : I32) (s : State)

theorem exec_jmp : exec (.jmp p) s = .next (setPc p s) := rfl

theorem exec_jmpig : exec (.jmpig ra rb) s = .next (jumpIf (isPositive (readReg rb s)) (readReg ra s) s) := rfl

theorem exec_jmpil : exec (.jmpil ra rb) s = .next (jumpIf (isNegative (readReg rb s)) (readReg ra s) s) := rfl

theorem exec_jmpie : exec (.jmpie ra rb) s = .next (jumpIf (isZero (readReg rb s)) (readReg ra s) s) := rfl

theorem exec_jmpigk : exec (.jmpigk rb p) s = .next (jumpIf (isPositive (readReg rb s)) p s) := rfl

theorem exec_jmpilk : exec (.jmpilk rb p) s = .next (jumpIf (isNegative (readReg rb s)) p s) := rfl

theorem exec_jmpiek : exec (.jmpiek rb p) s = .next (jumpIf (isZero (readReg rb s)) p s) := rfl

theorem exec_jmpigt : exec (.jmpigt ra rb p) s = .next (jumpIf (isGreater (readReg ra s) (readReg rb s)) p s) := rfl

end Jumps

/-! ### Their effect -/

theorem onlyPcChanges_setPc (v : I32) (s : State) : OnlyPcChanges s (setPc v s) :=
  ⟨fun r => readReg_setPc s r v, fun pa => physRead_setPc s pa v, setPc_space s v, setPc_pf s v, setPc_status s v,
    setPc_trace s v, setPc_config s v, setPc_boot s v⟩

/-- An instruction that is a `jumpIf` writes the target when the condition tested holds, else the next address, and
nothing else. -/
theorem exists_exec_of_jumpIf {i : Instr} {s : State} {b : Bool} {v : I32} {cond : Prop} [Decidable cond]
    (hexec : exec i s = .next (jumpIf b v s)) (hcond : b = true ↔ cond) :
    ∃ t, exec i s = .next t ∧ OnlyPcChanges s t ∧ t.pc = if cond then v else s.pc + 1 := by
  rw [jumpIf_eq_setPc] at hexec
  refine ⟨_, hexec, onlyPcChanges_setPc _ s, ?_⟩
  simp only [setPc_pc, hcond]

/-- Settles O15: JMP writes its target, and the other four are a `jumpIf` to `p` on their signed condition. -/
theorem immediateTargetJumpsWriteOnlyThePc : Obligations.ImmediateTargetJumpsWriteOnlyThePc := by
  unfold Obligations.ImmediateTargetJumpsWriteOnlyThePc
  intro ra rb p s
  exact ⟨rfl, rfl, rfl, rfl, rfl, ⟨_, exec_jmp p s, onlyPcChanges_setPc p s, setPc_pc s p⟩,
    exists_exec_of_jumpIf (exec_jmpigk rb p s) (isPositive_iff _),
    exists_exec_of_jumpIf (exec_jmpilk rb p s) (isNegative_iff _),
    exists_exec_of_jumpIf (exec_jmpiek rb p s) (isZero_iff _),
    exists_exec_of_jumpIf (exec_jmpigt ra rb p s) (isGreater_iff _ _)⟩

/-- Settles O16: each of the three is a `jumpIf` to the value of `ra` on the sign of the value of `rb`. -/
theorem registerTargetJumpsWriteOnlyThePc : Obligations.RegisterTargetJumpsWriteOnlyThePc := by
  unfold Obligations.RegisterTargetJumpsWriteOnlyThePc
  intro ra rb s
  exact ⟨rfl, rfl, rfl, exists_exec_of_jumpIf (exec_jmpig ra rb s) (isPositive_iff _),
    exists_exec_of_jumpIf (exec_jmpil ra rb s) (isNegative_iff _),
    exists_exec_of_jumpIf (exec_jmpie ra rb s) (isZero_iff _)⟩

end Sys2Proof.Machine
end

section
/-! SUPPORT. EMPTY, alone and over a whole cycle, and SYSCALL with selector 1 or an invalid selector (43_system.md R105
to R107, R109). -/

namespace Sys2Proof.Machine

/-! ### EMPTY (R105) -/

theorem exec_empty (s : State) : exec .empty s = .next (advancePc s) := rfl

theorem onlyPcChanges_advancePc (s : State) : OnlyPcChanges s (advancePc s) :=
  onlyPcChanges_setPc (s.pc + 1) s

/-- A step whose instruction leaves no fault pending ends in the instruction's own next state: the end-of-cycle check
has nothing to log (60_exceptions.md R114). -/
theorem step_of_exec_next {i : Instr} {s t : State} (hx : executing s = some i)
    (hexec : exec i (afterTranslate s.pc s) = .next t) (hclean : t.pf = .none) : step s = .next t := by
  rw [step_executing hx, hexec, finishCycle, endOfCycle_none hclean]

/-- Settles O19: EMPTY is the pc advance, and with no fault pending its cycle is the fetch's binding and that advance. -/
theorem emptyOnlyAdvancesThePc : Obligations.EmptyOnlyAdvancesThePc := by
  unfold Obligations.EmptyOnlyAdvancesThePc
  refine ⟨rfl, fun s => ⟨advancePc s, exec_empty s, onlyPcChanges_advancePc s, advancePc_pc s⟩, ?_⟩
  intro s hx hclean
  have hstill : (advancePc (afterTranslate s.pc s)).pf = .none := by
    rw [advancePc_pf, afterTranslate_pf, hclean]
  exact step_of_exec_next hx (exec_empty _) hstill

/-! ### SYSCALL with the selectors that write nothing out (R106, R107, R109) -/

section Syscall

variable {s : State}

theorem exec_syscall (s : State) : exec .syscall s = .next (advancePc (syscallHandle s)) := rfl

theorem syscallHandle_of_read (h : readReg 8 s = 1) : syscallHandle s = s :=
  if_pos h

theorem syscallHandle_of_invalid (hread : readReg 8 s ≠ 1) (hwrite : readReg 8 s ≠ 2) :
    syscallHandle s = emit .invalidParam s :=
  (if_neg hread).trans (if_neg hwrite)

end Syscall

/-- Settles O22: for selector 1 the handler is the identity, for an invalid selector it is the emission of InvalidParam,
and the pc advances after either. -/
theorem syscallReadAndInvalidSelectorsHaveNoOtherEffect :
    Obligations.SyscallReadAndInvalidSelectorsHaveNoOtherEffect := by
  unfold Obligations.SyscallReadAndInvalidSelectorsHaveNoOtherEffect
  intro s
  constructor
  · intro hread
    rw [exec_syscall, syscallHandle_of_read hread]
    rfl
  · intro hread hwrite
    rw [exec_syscall, syscallHandle_of_invalid hread hwrite]
    rfl

end Sys2Proof.Machine
end

section
/-! SUPPORT. The end of a cycle and of a run (60_exceptions.md R114, R115, R118): a cycle before its check logs no
Interrupt, and the last event of a halted machine is the one its `pf` names. -/

namespace Sys2Proof.Machine

/-! ### The one check of a cycle (R114, R115) -/

section Cycle

variable {i : Instr} {s u : State}

/-- From `s` to `u` the trace gains at most one event, and that is no Interrupt. -/
def LogsNoInterrupt (s u : State) : Prop :=
  u.trace = s.trace ∨ ∃ e, u.trace = s.trace ++ [e] ∧ ∀ k v, e ≠ .interrupt k v

theorem ne_interrupt_of_not_terminal {e : Event} (h : e.terminal = false) (k : PendingFault) (v : I32) :
    e ≠ .interrupt k v := by
  rintro rfl
  cases h

/-- An instruction logs nothing, a SYSCALL's event that ends no run, or a StopNote. -/
theorem ExecCan.logsNoInterrupt (h : ExecCan i s u) : LogsNoInterrupt s u := by
  obtain ⟨-, -, htrace⟩ | ⟨-, -, -, htrace⟩ | ⟨-, -, -, e, hterm, htrace⟩ | ⟨-, -, -, -, htrace⟩ := h.run
  · exact .inl htrace
  · exact .inl htrace
  · exact .inr ⟨e, htrace, ne_interrupt_of_not_terminal hterm⟩
  · exact .inr ⟨.stopNote, htrace, fun _ _ => Event.noConfusion⟩

/-- A fetch or decode fault is only recorded before the check, and an instruction never calls the controller. -/
theorem CycleBody.logsNoInterrupt (h : CycleBody s u) : LogsNoInterrupt s u := by
  cases h with
  | fetchFault _ hu => exact .inl (by rw [hu, raise_trace])
  | illegal _ _ _ _ hu => exact .inl (by rw [hu, raise_trace, afterFetch_eq, afterTranslate_trace])
  | executed _ i _ _ hexec =>
    have hlogs := (exec_can hexec).logsNoInterrupt
    rwa [LogsNoInterrupt, afterFetch_eq, afterTranslate_trace] at hlogs

/-- A cycle of a running machine is a part that logs no Interrupt, then the end-of-cycle check. -/
theorem exists_endOfCycle_of_step {t : State} (hruns : cpuRuns s = true) (hstep : step s = .next t) :
    ∃ u, t = endOfCycle u ∧ LogsNoInterrupt s u := by
  obtain ⟨hidle, -⟩ | ⟨-, u, hbody, ht⟩ := step_cases hstep
  · rw [hruns] at hidle
    cases hidle
  · exact ⟨u, ht, hbody.logsNoInterrupt⟩

end Cycle

/-- Settles O27: the check is its own two cases, and a running machine's step is a cycle body and that check. -/
theorem endOfCycleCheckLogsAndHalts : Obligations.EndOfCycleCheckLogsAndHalts := by
  unfold Obligations.EndOfCycleCheckLogsAndHalts
  exact ⟨fun _ => endOfCycle_none, fun _ => endOfCycle_fault, fun _ _ => exists_endOfCycle_of_step⟩

/-! ### STATUS and the last event (R118) -/

section Status

variable {s : State}

theorem portStatus_eq_iff {st : CpuStatus} {k : PendingFault} :
    portStatus s = (st, k) ↔ s.status = st ∧ s.pf = k :=
  Prod.mk_inj

/-- A machine halted with no fault was stopped by STOP. -/
theorem RunInv.getLast?_of_halted_none (h : RunInv s) (hhalted : s.status = .halted) (hpf : s.pf = .none) :
    s.trace.getLast? = some .stopNote := by
  obtain ⟨earlier, last, htrace, -, ⟨hlast, -⟩ | ⟨-, hfault⟩⟩ := h.halted_logged hhalted
  · rw [htrace, hlast, List.getLast?_concat]
  · exact absurd hpf hfault

/-- A machine halted with a fault was halted by the check that logged it. -/
theorem RunInv.getLast?_of_halted_fault (h : RunInv s) (hhalted : s.status = .halted) (hpf : s.pf ≠ .none) :
    s.trace.getLast? = some (.interrupt s.pf s.pc) := by
  obtain ⟨earlier, last, htrace, -, ⟨-, hnone⟩ | ⟨hlast, -⟩⟩ := h.halted_logged hhalted
  · exact absurd hnone hpf
  · rw [htrace, hlast, List.getLast?_concat]

end Status

/-- Settles O47: STATUS is `status` and `pf`, and the run invariant says which event each pair has logged last. -/
theorem statusTellsTheHaltPathsApart : Obligations.StatusTellsTheHaltPathsApart := by
  unfold Obligations.StatusTellsTheHaltPathsApart
  intro s hsafe
  have hrun := hsafe.run
  refine ⟨fun hanswer => ?_, fun k hfault hanswer => ?_, fun hanswer => ?_, fun hhalted => ?_, fun hrunning => ?_⟩
  · obtain ⟨hhalted, hnone⟩ := portStatus_eq_iff.mp hanswer
    exact ⟨hhalted, hrun.getLast?_of_halted_none hhalted hnone⟩
  · obtain ⟨hhalted, rfl⟩ := portStatus_eq_iff.mp hanswer
    exact ⟨hhalted, hrun.getLast?_of_halted_fault hhalted hfault⟩
  · obtain ⟨hrunning, -⟩ := portStatus_eq_iff.mp hanswer
    obtain ⟨-, hquiet⟩ := hrun.running_clean hrunning
    exact ⟨hrunning, hquiet⟩
  · exact portStatus_eq_iff.mpr ⟨hhalted, rfl⟩
  · obtain ⟨hclean, -⟩ := hrun.running_clean hrunning
    exact portStatus_eq_iff.mpr ⟨hrunning, hclean⟩

end Sys2Proof.Machine
end

section
/-! SUPPORT. The decoder and the encoder as inverses on what an instruction holds, and the 104-bit reference layout
(30_encoding.md R60 to R64). -/

namespace Sys2Proof

/-! ### Decoding an encoded instruction -/

@[simp] theorem withRa_regField (op : Tag) (ra : Reg) (rb p : I32) (k : Reg → Decoded) :
    withRa ⟨op, regField ra, rb, p⟩ k = k ra := by
  rw [withRa, regOf_regField]

@[simp] theorem withRb_regField (op : Tag) (ra : I32) (rb : Reg) (p : I32) (k : Reg → Decoded) :
    withRb ⟨op, ra, regField rb, p⟩ k = k rb := by
  rw [withRb, regOf_regField]

@[simp] theorem withRaRb_regField (op : Tag) (ra rb : Reg) (p : I32) (k : Reg → Reg → Decoded) :
    withRaRb ⟨op, regField ra, regField rb, p⟩ k = k ra rb := by
  rw [withRaRb, withRa_regField, withRb_regField]

theorem decode_encode (i : Instr) : decode (encode i) = .instr i := by
  cases i <;> simp [encode, decode]

theorem encode_injective : Function.Injective encode := by
  intro i j h
  have hdecode : Decoded.instr i = .instr j := by rw [← decode_encode i, h, decode_encode]
  exact Decoded.instr.inj hdecode

/-- Settles O1: each register field of the encoding is read back by `regOf`, and each tag selects its own arm. -/
theorem decodeInvertsEncode : Obligations.DecodeInvertsEncode :=
  decode_encode

/-! ### What the decoder can answer -/

/-- The Word with its tag and used fields, and in each unused field what the encoder writes there. -/
def Word.canonical (w : Word) : Word where
  op := w.op
  ra := if usesRa w.op then w.ra else Config.unused
  rb := if usesRb w.op then w.rb else Config.unused
  p := if usesP w.op then w.p else if w.op = 0x00 ∨ w.op = 0x01 then 0 else Config.unused

/-- The forms of an arm of the decoder, by the register fields that the tag uses, with the encoding of what it answers;
and the last arm. -/
inductive DecodeArm (w : Word) : Decoded → Prop where
  | plain (i : Instr) (hra : usesRa w.op = false) (hrb : usesRb w.op = false) (htag : w.op.toNat ≤ 0x1A)
      (henc : encode i = w.canonical) : DecodeArm w (.instr i)
  | ra (k : Reg → Instr) (hra : usesRa w.op = true) (hrb : usesRb w.op = false) (htag : w.op.toNat ≤ 0x1A)
      (henc : ∀ a, regField a = w.ra → encode (k a) = w.canonical) : DecodeArm w (withRa w fun a => .instr (k a))
  | rb (k : Reg → Instr) (hra : usesRa w.op = false) (hrb : usesRb w.op = true) (htag : w.op.toNat ≤ 0x1A)
      (henc : ∀ b, regField b = w.rb → encode (k b) = w.canonical) : DecodeArm w (withRb w fun b => .instr (k b))
  | raRb (k : Reg → Reg → Instr) (hra : usesRa w.op = true) (hrb : usesRb w.op = true) (htag : w.op.toNat ≤ 0x1A)
      (henc : ∀ a b, regField a = w.ra → regField b = w.rb → encode (k a b) = w.canonical) :
      DecodeArm w (withRaRb w fun a b => .instr (k a b))
  | unrecognized (htag : 0x1A < w.op.toNat) : DecodeArm w (.rejected (.unrecognizedTag w.op))

/-- The last arm of the decoder is reached only with a tag that is none of the 27. -/
theorem toNat_gt_of_ne {t : Tag} (h : ∀ n ≤ 0x1A, t ≠ BitVec.ofNat 8 n) : 0x1A < t.toNat := by
  by_contra hle
  exact h t.toNat (by omega) (by simp)

/-- Everything the decoder can do: the tag selects one of the 27 arms of the table of R61, or the last one. -/
theorem decode_arm (w : Word) : DecodeArm w (decode w) := by
  unfold decode
  split
  case h_28 =>
    refine .unrecognized (toNat_gt_of_ne fun n hn hop => ?_)
    interval_cases n <;> contradiction
  all_goals
    rename_i hop
    constructor <;> simp +contextual [hop, encode, Word.canonical, usesRa, usesRb, usesP]

theorem encode_of_decode {w : Word} {i : Instr} (h : decode w = .instr i) : encode i = w.canonical := by
  have harm := decode_arm w
  generalize decode w = d at harm h
  cases harm with
  | plain j _ _ _ henc =>
    cases h
    exact henc
  | ra k _ _ _ henc =>
    obtain ⟨a, ha, rfl⟩ := withRa_instr w h
    exact henc a ha
  | rb k _ _ _ henc =>
    obtain ⟨b, hb, rfl⟩ := withRb_instr w h
    exact henc b hb
  | raRb k _ _ _ henc =>
    obtain ⟨a, b, ha, hb, rfl⟩ := withRaRb_instr w h
    exact henc a b ha hb
  | unrecognized => cases h

/-- The legal Words of R64: one of the 27 tags, and every used register field in 0..9. -/
def Word.Legal (w : Word) : Prop :=
  w.op.toNat ≤ 0x1A ∧ (usesRa w.op = true → 0 ≤ w.ra.toInt ∧ w.ra.toInt < 10) ∧
    (usesRb w.op = true → 0 ≤ w.rb.toInt ∧ w.rb.toInt < 10)

theorem exists_decode_iff_legal (w : Word) : (∃ i, decode w = .instr i) ↔ w.Legal := by
  have harm := decode_arm w
  generalize decode w = d at harm
  unfold Word.Legal
  cases harm with
  | plain i hra hrb htag _ => simp [hra, hrb, htag]
  | ra k hra hrb htag _ => simp [hra, hrb, htag, withRa_isInstr_iff]
  | rb k hra hrb htag _ => simp [hra, hrb, htag, withRb_isInstr_iff]
  | raRb k hra hrb htag _ => simp [hra, hrb, htag, withRaRb_isInstr_iff]
  | unrecognized htag => simp [Nat.not_le.mpr htag]

/-- Settles O3: every arm of the decoder checks exactly the register fields that its tag uses. -/
theorem decodeAcceptsExactlyLegalWords : Obligations.DecodeAcceptsExactlyLegalWords :=
  exists_decode_iff_legal

/-- Settles O2: the encoding of the decoded instruction is the Word with its unused fields overwritten. -/
theorem decodeKeepsTagAndUsedFields : Obligations.DecodeKeepsTagAndUsedFields := by
  unfold Obligations.DecodeKeepsTagAndUsedFields
  intro w i h
  rw [encode_of_decode h]
  exact ⟨rfl, fun hra => if_pos hra, fun hrb => if_pos hrb, fun hp => if_pos hp⟩

/-! ### Words that agree on what an instruction holds (R62) -/

section Agree

variable {w v : Word}

theorem canonical_congr (hop : v.op = w.op) (hra : usesRa w.op = true → v.ra = w.ra)
    (hrb : usesRb w.op = true → v.rb = w.rb) (hp : usesP w.op = true → v.p = w.p) : v.canonical = w.canonical := by
  unfold Word.canonical
  rw [hop]
  congr 1
  · exact ite_congr rfl hra fun _ => rfl
  · exact ite_congr rfl hrb fun _ => rfl
  · exact ite_congr rfl hp fun _ => rfl

theorem Word.Legal.congr (h : w.Legal) (hop : v.op = w.op) (hra : usesRa w.op = true → v.ra = w.ra)
    (hrb : usesRb w.op = true → v.rb = w.rb) : v.Legal := by
  obtain ⟨htag, hlegalRa, hlegalRb⟩ := h
  unfold Word.Legal
  rw [hop]
  exact ⟨htag, fun hu => hra hu ▸ hlegalRa hu, fun hu => hrb hu ▸ hlegalRb hu⟩

end Agree

/-- Settles O4: the second Word is legal like the first, and what each decodes to encodes as the same Word. -/
theorem unusedFieldsAreIgnored : Obligations.UnusedFieldsAreIgnored := by
  unfold Obligations.UnusedFieldsAreIgnored
  intro w v hop hra hrb hp i h
  have hlegal : w.Legal := (exists_decode_iff_legal w).mp ⟨i, h⟩
  obtain ⟨j, hj⟩ := (exists_decode_iff_legal v).mpr (hlegal.congr hop hra hrb)
  have hsame : j = i := by
    apply encode_injective
    rw [encode_of_decode hj, encode_of_decode h, canonical_congr hop hra hrb hp]
  rw [hj, hsame]

/-! ### The reference layout (R60) -/

section Layout

open BitVec (extractLsb'_append_eq_of_le extractLsb'_append_eq_of_add_le extractLsb'_eq_self
  extractLsb'_append_extractLsb'_eq_extractLsb')

theorem decode_of_unrecognized {w : Word} (h : 0x1A < w.op.toNat) :
    decode w = .rejected (.unrecognizedTag w.op) := by
  have harm := decode_arm w
  generalize decode w = d at harm
  cases harm with
  | plain _ _ _ htag _ => omega
  | ra _ _ _ htag _ => omega
  | rb _ _ _ htag _ => omega
  | raRb _ _ _ htag _ => omega
  | unrecognized => rfl

theorem Word.toBits_fields (w : Word) : w.toBits.extractLsb' 96 8 = w.op ∧ w.toBits.extractLsb' 64 32 = w.ra ∧
    w.toBits.extractLsb' 32 32 = w.rb ∧ w.toBits.extractLsb' 0 32 = w.p := by
  unfold Word.toBits
  refine ⟨?_, ?_, ?_, ?_⟩
  · rw [extractLsb'_append_eq_of_le (by omega), extractLsb'_append_eq_of_le (by omega),
      extractLsb'_append_eq_of_le (by omega), extractLsb'_eq_self]
  · rw [extractLsb'_append_eq_of_le (by omega), extractLsb'_append_eq_of_le (by omega),
      extractLsb'_append_eq_of_add_le (by omega), extractLsb'_eq_self]
  · rw [extractLsb'_append_eq_of_le (by omega), extractLsb'_append_eq_of_add_le (by omega), extractLsb'_eq_self]
  · rw [extractLsb'_append_eq_of_add_le (by omega), extractLsb'_eq_self]

theorem Word.ofBits_toBits (w : Word) : Word.ofBits w.toBits = w := by
  obtain ⟨hop, hra, hrb, hp⟩ := Word.toBits_fields w
  rw [Word.ofBits, hop, hra, hrb, hp]

theorem Word.toBits_ofBits (b : BitVec 104) : (Word.ofBits b).toBits = b := by
  unfold Word.toBits Word.ofBits
  dsimp only
  rw [extractLsb'_append_extractLsb'_eq_extractLsb' (start₂ := 96) (start₁ := 64) (len₁ := 32) rfl,
    extractLsb'_append_extractLsb'_eq_extractLsb' (start₂ := 64) (start₁ := 32) (len₁ := 32) rfl,
    extractLsb'_append_extractLsb'_eq_extractLsb' (start₂ := 32) (start₁ := 0) (len₁ := 32) rfl]
  exact extractLsb'_eq_self

end Layout

/-- Settles O5: cutting the vector and joining the fields undo each other, and a tag above 0x1A is the decoder's last
arm. -/
theorem referenceLayoutHoldsTheFourFields : Obligations.ReferenceLayoutHoldsTheFourFields := by
  unfold Obligations.ReferenceLayoutHoldsTheFourFields
  exact ⟨Word.toBits_fields, Word.ofBits_toBits, Word.toBits_ofBits, fun _ h => decode_of_unrecognized h, by decide,
    by decide⟩

/-- Settles O6: the nine Words are evaluated. -/
theorem sampleWordsDecode : Obligations.SampleWordsDecode := by
  unfold Obligations.SampleWordsDecode
  decide

end Sys2Proof
end

section
/-! SUPPORT. Translation: when it succeeds, what it answers, the order of frames, and what a run keeps of the address
space (20_memory.md R38 to R45). -/

namespace Sys2Proof.Machine

/-! ### Along a run (R43(d), R44) -/

section AlongARun

variable {k page f : Nat} {s t : State}

theorem run_config (h : Sys2Proof.core.run k s = .next t) : t.config = s.config :=
  run_keeps (P := fun u => u.config = s.config) (fun _ _ hu huv => (step_fixed huv).1.trans hu) rfl h

theorem step_keeps_binding (h : step s = .next t) (hf : frameOf page s.space.pageTable = some f) :
    frameOf page t.space.pageTable = some f :=
  step_space (P := fun a => frameOf page a.pageTable = some f) (fun a va => translate_keeps_binding _ va a) hf h

theorem step_keeps_occupied (h : step s = .next t) (hf : f ∈ s.space.occupied) : f ∈ t.space.occupied :=
  step_space (P := fun a => f ∈ a.occupied) (fun a va => translate_keeps_occupied _ va a) hf h

theorem run_keeps_binding (h : Sys2Proof.core.run k s = .next t) (hf : frameOf page s.space.pageTable = some f) :
    frameOf page t.space.pageTable = some f :=
  run_keeps (P := fun u => frameOf page u.space.pageTable = some f) (fun _ _ hu huv => step_keeps_binding huv hu) hf h

theorem run_keeps_occupied (h : Sys2Proof.core.run k s = .next t) (hf : f ∈ s.space.occupied) :
    f ∈ t.space.occupied :=
  run_keeps (P := fun u => f ∈ u.space.occupied) (fun _ _ hu huv => step_keeps_occupied huv hu) hf h

end AlongARun

/-- Settles O40: a step writes the address space only through the translator, which keeps bindings and occupancy. -/
theorem bindingsArePermanentAlongARun : Obligations.BindingsArePermanentAlongARun := by
  unfold Obligations.BindingsArePermanentAlongARun
  intro k s t h
  exact ⟨fun _ _ => run_keeps_binding h, fun _ => run_keeps_occupied h⟩

/-- Settles O39: the run keeps the bindings that the first translation left, and with them its answer. -/
theorem translationIsConsistentAlongARun : Obligations.TranslationIsConsistentAlongARun := by
  unfold Obligations.TranslationIsConsistentAlongARun
  intro va pa k s t hpa hrun
  have hconfig : t.config = s.config := (run_config hrun).trans (afterTranslate_config s va)
  have hagain : t.space.translate t.config va = (some pa, t.space) := by
    rw [hconfig]
    exact translate_again hpa fun _ _ => run_keeps_binding hrun
  exact ⟨by rw [translated, hagain], by rw [afterTranslate, hagain]⟩

/-! ### When a translation succeeds (R40) -/

theorem afterTranslate_of_mapped {s : State} {va : I32} {f : Nat} (hr : PageInRange s.config va)
    (hf : frameOf (pageOf s.config va).toNat s.space.pageTable = some f) : afterTranslate va s = s := by
  rw [afterTranslate, translate_mapped hr hf]

/-- Settles O37: success is `translated_isSome_iff`, and neither a failure nor a mapped page changes the space. -/
theorem translateSucceedsExactlyOnAccessibleAddresses :
    Obligations.TranslateSucceedsExactlyOnAccessibleAddresses := by
  unfold Obligations.TranslateSucceedsExactlyOnAccessibleAddresses
  intro va s hc
  refine ⟨translated_isSome_iff hc va, afterTranslate_of_none, fun h0 hlt hmapped => ?_⟩
  obtain ⟨f, hf⟩ := hmapped
  exact ⟨(translated_isSome_iff hc va).mpr ⟨h0, hlt, .inl ⟨f, hf⟩⟩,
    afterTranslate_of_mapped ((pageInRange_iff hc va).mpr ⟨h0, hlt⟩) hf⟩

/-! ### What it answers (R39, R38) -/

/-- An address that is not negative is its page times the page size plus its offset. -/
theorem toInt_eq_page_offset {c : Configuration} {va : I32} (hpage : 0 ≤ pageOf c va) (hsize : 0 < c.pageSize) :
    va.toInt = ((pageOf c va).toNat * c.pageSize + offsetOf c va : Nat) := by
  have hoffset : 0 ≤ va.toInt % (c.pageSize : Int) := Int.emod_nonneg _ (by omega)
  unfold offsetOf
  rw [Nat.cast_add, Nat.cast_mul, Int.toNat_of_nonneg hpage, Int.toNat_of_nonneg hoffset, pageOf,
    Int.ediv_mul_add_emod]

/-- Settles O36: the frame of the answer is the one that the page has after the translation, and it exists. -/
theorem translateAnswersFrameTimesPageSizePlusOffset :
    Obligations.TranslateAnswersFrameTimesPageSizePlusOffset := by
  unfold Obligations.TranslateAnswersFrameTimesPageSizePlusOffset
  intro va s hc hinv hacc
  obtain ⟨pa, hpa⟩ := translated_of_accessible hc hacc
  obtain ⟨⟨hpage, -⟩, f, hf, rfl⟩ := translate_some hpa
  have hoffset := offsetOf_lt hc va
  have hframe : f < s.config.frameCount := frame_lt (translate_inv hinv va) hf
  exact ⟨_, _, f, by exact_mod_cast toInt_eq_page_offset hpage (Nat.zero_lt_of_lt hoffset), hoffset, hf, hframe, hpa,
    slot_lt hc hframe va⟩

/-! ### The order of frames (R45) -/

theorem mem_occupied_iff_lt {c : Configuration} {a : AddressSpace} (h : SpaceInv c a) (f : Nat) :
    f ∈ a.occupied ↔ f < a.pageTable.length := by
  rw [h.occupied_prefix, List.mem_range]

/-- In a sound address space a successful first reference binds the next frame to its page. -/
theorem pageTable_of_first_reference {c : Configuration} {va : I32} {a : AddressSpace} (hinv : SpaceInv c a)
    (hok : (a.translate c va).1.isSome) (hnew : frameOf (pageOf c va).toNat a.pageTable = none) :
    (a.translate c va).2.pageTable = assign (pageOf c va).toNat a.pageTable.length a.pageTable := by
  rcases translate_cases c va a with ⟨_, e⟩ | ⟨_, f, hf, _⟩ | ⟨_, _, f, hf, e⟩ | ⟨_, _, _, e⟩
  · rw [e] at hok
    cases hok
  · cases hnew.symm.trans hf
  · rw [firstFree_of_inv hinv] at hf
    split at hf
    · cases hf
      rw [e]
    · cases hf
  · rw [e] at hok
    cases hok

/-- Settles O38: the occupied frames begin at 0 without a gap, and the first free frame comes next. -/
theorem framesAreHandedOutInOrder : Obligations.FramesAreHandedOutInOrder := by
  unfold Obligations.FramesAreHandedOutInOrder
  intro va s hinv
  refine ⟨mem_occupied_iff_lt hinv, fun hok hnew => ?_⟩
  have hfresh := Option.eq_none_iff_forall_ne_some.mpr hnew
  have htable : (afterTranslate va s).space.pageTable =
      assign (pageOf s.config va).toNat s.space.pageTable.length s.space.pageTable :=
    pageTable_of_first_reference hinv hok hfresh
  have hlength : (afterTranslate va s).space.pageTable.length = s.space.pageTable.length + 1 := by
    rw [htable, length_assign_fresh _ _ hfresh]
  have hinv' : SpaceInv s.config (afterTranslate va s).space := translate_inv hinv va
  refine ⟨by rw [htable, frameOf_assign_same], hlength, fun f => ?_⟩
  rw [mem_occupied_iff_lt hinv', hlength, Nat.lt_succ_iff]

/-! ### Physical memory (R38, R54) -/

/-- In canonical form, writing back what a slot holds changes nothing. -/
theorem physWrite_physRead {s : State} (h : Memory.wf s.empty s.mem = true) (pa : Nat) :
    physWrite pa (physRead pa s) s = s := by
  have hmem : memSet s.empty pa (physRead pa s) s.mem = s.mem := by
    refine memory_ext (wf_memSet _ _ _ h) h fun qa => ?_
    by_cases hq : qa = pa
    · rw [hq, memGet_memSet_same, physRead]
    · rw [memGet_memSet_ne _ _ _ _ _ hq]
  rw [physWrite, hmem]

/-- Settles O42: read after write, and the canonical form determines the list of memory. -/
theorem physicalMemoryReadsTheLastWrite : Obligations.PhysicalMemoryReadsTheLastWrite := by
  unfold Obligations.PhysicalMemoryReadsTheLastWrite
  intro pa w s
  exact ⟨physRead_physWrite_same pa w s, fun qa hq => physRead_physWrite_ne pa qa w s hq,
    fun hwf => ⟨wf_memSet s.empty pa w hwf, physWrite_physRead hwf pa⟩⟩

end Sys2Proof.Machine
end

section
/-! SUPPORT. The instructions that reach memory through the translator: the loads, the stores and the jumps through
memory (40_data_transfer.md R73, R75 to R78; 42_control.md R91, R93, R100 to R102). -/

namespace Sys2Proof.Machine

/-! ### The instructions as their shared operations -/

section Instructions

variable (ra rb : Reg) (p : I32) (s : State)

theorem exec_ldd : exec (.ldd ra p) s = .next (loadFrom ra p s) := rfl

theorem exec_ldx : exec (.ldx ra rb) s = .next (loadFrom ra (readReg rb s) s) := rfl

theorem exec_std : exec (.std ra p) s = .next (storeTo p (readReg ra s) s) := rfl

theorem exec_stx : exec (.stx ra rb) s = .next (storeTo (readReg ra s) (readReg rb s) s) := rfl

theorem exec_jmpim : exec (.jmpim p) s = .next (jumpThrough p s) := rfl

theorem exec_jmpigm : exec (.jmpigm rb p) s = .next (jumpThroughIf (isPositive (readReg rb s)) p s) := rfl

theorem exec_jmpilm : exec (.jmpilm rb p) s = .next (jumpThroughIf (isNegative (readReg rb s)) p s) := rfl

theorem exec_jmpiem : exec (.jmpiem rb p) s = .next (jumpThroughIf (isZero (readReg rb s)) p s) := rfl

end Instructions

/-! ### At an address that is not accessible: InvalidAddress and nothing else (R73, R91) -/

section NotAccessible

variable {s : State} {va : I32}

theorem withTranslated_of_not_accessible (hc : s.config.accepted = true) (h : ¬ Accessible va s)
    (rest : Nat → State → State) : withTranslated va s rest = addressFault s :=
  withTranslated_none (translated_of_not_accessible hc h) rest

theorem loadFrom_of_not_accessible (hc : s.config.accepted = true) (h : ¬ Accessible va s) (ra : Reg) :
    loadFrom ra va s = addressFault s :=
  withTranslated_of_not_accessible hc h _

theorem storeTo_of_not_accessible (hc : s.config.accepted = true) (h : ¬ Accessible va s) (v : I32) :
    storeTo va v s = addressFault s :=
  withTranslated_of_not_accessible hc h _

theorem jumpThrough_of_not_accessible (hc : s.config.accepted = true) (h : ¬ Accessible va s) :
    jumpThrough va s = addressFault s :=
  withTranslated_of_not_accessible hc h _

end NotAccessible

/-! ### At an accessible address -/

section Accessible

variable {s : State} {va : I32}

theorem loadFrom_effect (hc : s.config.accepted = true) (h : Accessible va s) (ra : Reg) :
    LoadEffect ra va s (loadFrom ra va s) := by
  obtain ⟨pa, hpa⟩ := translated_of_accessible hc h
  have heq : loadFrom ra va s = advancePc (writeReg ra (physRead pa s).p (afterTranslate va s)) :=
    withTranslated_some hpa _
  obtain ⟨hvalue, hregs, hpc, hmem, hspace, hcontrol⟩ :=
    advancePc_writeReg_effect ra (physRead pa s).p (afterTranslate va s)
  rw [heq]
  exact ⟨pa, hpa, hvalue, hregs, hpc, hspace, hmem, hcontrol⟩

theorem storeTo_effect (hc : s.config.accepted = true) (h : Accessible va s) (v : I32) :
    StoreEffect va v s (storeTo va v s) := by
  obtain ⟨pa, hpa⟩ := translated_of_accessible hc h
  have heq : storeTo va v s = advancePc (physWrite pa (dataWord v) (afterTranslate va s)) :=
    withTranslated_some hpa _
  rw [heq]
  refine ⟨pa, hpa, ?_, fun qa hq => ?_, fun r => ?_, rfl, rfl, rfl, rfl, rfl, rfl, rfl⟩
  · rw [physRead_advancePc, physRead_physWrite_same, dataWord]
  · rw [physRead_advancePc, physRead_physWrite_ne _ _ _ _ hq, physRead_afterTranslate]
  · rw [readReg_advancePc, readReg_physWrite, readReg_afterTranslate]

theorem jumpThrough_effect (hc : s.config.accepted = true) (h : Accessible va s) :
    JumpThroughEffect va s (jumpThrough va s) := by
  obtain ⟨pa, hpa⟩ := translated_of_accessible hc h
  have heq : jumpThrough va s = setPc (physRead pa s).p (afterTranslate va s) := withTranslated_some hpa _
  rw [heq]
  exact ⟨pa, hpa, rfl, fun _ => rfl, fun _ => rfl, rfl, rfl, rfl, rfl, rfl, rfl⟩

end Accessible

/-- Settles O9: both loads are `loadFrom`, at `p` and at the value of `rb`. -/
theorem loadsReadThePayloadAtTheAddress : Obligations.LoadsReadThePayloadAtTheAddress := by
  unfold Obligations.LoadsReadThePayloadAtTheAddress
  intro ra rb p s hc
  refine ⟨rfl, rfl, fun h => ⟨_, exec_ldd ra p s, loadFrom_effect hc h ra⟩, fun h => ?_,
    fun h => ⟨_, exec_ldx ra rb s, loadFrom_effect hc h ra⟩, fun h => ?_⟩
  · rw [exec_ldd, loadFrom_of_not_accessible hc h]
  · rw [exec_ldx, loadFrom_of_not_accessible hc h]

/-- Settles O10: both stores are `storeTo`, at `p` and at the value of `ra`. -/
theorem storesReplaceTheWholeSlot : Obligations.StoresReplaceTheWholeSlot := by
  unfold Obligations.StoresReplaceTheWholeSlot
  intro ra rb p s hc
  refine ⟨rfl, rfl, fun h => ⟨_, exec_std ra p s, storeTo_effect hc h _⟩, fun h => ?_,
    fun h => ⟨_, exec_stx ra rb s, storeTo_effect hc h _⟩, fun h => ?_⟩
  · rw [exec_std, storeTo_of_not_accessible hc h]
  · rw [exec_stx, storeTo_of_not_accessible hc h]

/-- The four data accesses, each with the address that it computes (R75 to R78). -/
def AccessesAt (i : Instr) (va : I32) (s : State) : Prop :=
  (∃ ra, i = .ldd ra va) ∨ (∃ ra rb, i = .ldx ra rb ∧ va = readReg rb s) ∨
    (∃ ra, i = .std ra va) ∨ (∃ ra rb, i = .stx ra rb ∧ va = readReg ra s)

theorem exec_of_accessesAt {i : Instr} {va : I32} {s : State} (hc : s.config.accepted = true)
    (h : ¬ Accessible va s) (hi : AccessesAt i va s) : exec i s = .next (addressFault s) := by
  rcases hi with ⟨ra, rfl⟩ | ⟨ra, rb, rfl, rfl⟩ | ⟨ra, rfl⟩ | ⟨ra, rb, rfl, rfl⟩
  · rw [exec_ldd, loadFrom_of_not_accessible hc h]
  · rw [exec_ldx, loadFrom_of_not_accessible hc h]
  · rw [exec_std, storeTo_of_not_accessible hc h]
  · rw [exec_stx, storeTo_of_not_accessible hc h]

/-- Settles O11: a faulting access only records InvalidAddress, which the end-of-cycle check logs at the same pc. -/
theorem faultingDataAccessCommitsNothing : Obligations.FaultingDataAccessCommitsNothing := by
  unfold Obligations.FaultingDataAccessCommitsNothing
  intro i va s hc h hi
  have hfault : (addressFault s).pf ≠ .none := PendingFault.noConfusion
  rw [exec_of_accessesAt hc h hi, finishCycle, endOfCycle_fault hfault]
  exact ⟨_, rfl, fun _ => rfl, fun _ => rfl, rfl, rfl, rfl, rfl, rfl⟩

/-- Settles O17: JMPIM is `jumpThrough` at `p`. -/
theorem jmpimJumpsThroughMemory : Obligations.JmpimJumpsThroughMemory := by
  unfold Obligations.JmpimJumpsThroughMemory
  intro p s hc
  refine ⟨rfl, fun h => ⟨_, exec_jmpim p s, jumpThrough_effect hc h⟩, fun h => ?_⟩
  rw [exec_jmpim, jumpThrough_of_not_accessible hc h]

/-! ### The conditional jumps through memory (R91, R100 to R102) -/

theorem jumpThroughIf_true (va : I32) (s : State) : jumpThroughIf true va s = jumpThrough va s := rfl

theorem jumpThroughIf_false (va : I32) (s : State) : jumpThroughIf false va s = advancePc s := rfl

/-- A conditional jump through memory is the jump when the condition tested holds, and else the advance of the pc. -/
theorem exec_of_jumpThroughIf {i : Instr} {b : Bool} {p : I32} {s : State} {cond : Prop}
    (hexec : exec i s = .next (jumpThroughIf b p s)) (hcond : cond ↔ b = true) :
    (cond → exec i s = .next (jumpThrough p s)) ∧ (¬ cond → exec i s = .next (advancePc s)) := by
  rw [hexec, hcond]
  constructor
  · rintro rfl
    rw [jumpThroughIf_true]
  · intro hb
    rw [Bool.eq_false_of_not_eq_true hb, jumpThroughIf_false]

/-- Settles O18: each of the three is `jumpThroughIf` on its signed condition. -/
theorem conditionalJumpsThroughMemoryTranslateOnlyWhenTaken :
    Obligations.ConditionalJumpsThroughMemoryTranslateOnlyWhenTaken := by
  unfold Obligations.ConditionalJumpsThroughMemoryTranslateOnlyWhenTaken
  intro i rb p s cond hc hi
  obtain ⟨htaken, huntaken⟩ :
      (cond → exec i s = .next (jumpThrough p s)) ∧ (¬ cond → exec i s = .next (advancePc s)) := by
    rcases hi with ⟨rfl, -, hcond⟩ | ⟨rfl, -, hcond⟩ | ⟨rfl, -, hcond⟩
    · exact exec_of_jumpThroughIf (exec_jmpigm rb p s) (hcond.trans (isPositive_iff _).symm)
    · exact exec_of_jumpThroughIf (exec_jmpilm rb p s) (hcond.trans (isNegative_iff _).symm)
    · exact exec_of_jumpThroughIf (exec_jmpiem rb p s) (hcond.trans (isZero_iff _).symm)
  refine ⟨fun hcond h => ⟨_, htaken hcond, jumpThrough_effect hc h⟩, fun hcond h => ?_,
    fun hcond => ⟨_, huntaken hcond, onlyPcChanges_advancePc s, advancePc_pc s⟩⟩
  rw [htaken hcond, jumpThrough_of_not_accessible hc h]

end Sys2Proof.Machine
end

section
/-! SUPPORT. DATA, SYSCALL and STOP, and the cycle around an instruction: fetch and decode faults, the executed
instruction, and the pc that a fault is logged at (43_system.md; 30_encoding.md R64 to R68; 60_exceptions.md R114 to
R117). -/

namespace Sys2Proof.Machine

/-! ### SYSCALL (43_system.md R106 to R109) -/

section Syscall

variable {s : State}

theorem syscallHandle_of_write (h : readReg 8 s = 2) : syscallHandle s = sysWrite (readReg 9 s) s := by
  have hread : readReg 8 s ≠ 1 := by
    rw [h]
    decide
  exact (if_neg hread).trans (if_pos h)

theorem sysWrite_of_some {va : I32} {pa : Nat} (h : translated va s = some pa) :
    sysWrite va s = emit (.out (physRead pa s).p) (afterTranslate va s) := by
  rw [sysWrite, h]
  rfl

theorem sysWrite_of_none {va : I32} (h : translated va s = none) : sysWrite va s = setPf .invalidAddress s := by
  rw [sysWrite, h, afterTranslate_of_none h]

/-- The four ways of the handler: selector 1, a write that finds its Word or does not, an invalid selector. -/
theorem syscallHandle_cases (s : State) :
    (readReg 8 s = 1 ∧ syscallHandle s = s) ∨
    (readReg 8 s = 2 ∧ ∃ pa, translated (readReg 9 s) s = some pa ∧
      syscallHandle s = emit (.out (physRead pa s).p) (afterTranslate (readReg 9 s) s)) ∨
    (readReg 8 s = 2 ∧ translated (readReg 9 s) s = none ∧ syscallHandle s = setPf .invalidAddress s) ∨
    (readReg 8 s ≠ 1 ∧ readReg 8 s ≠ 2 ∧ syscallHandle s = emit .invalidParam s) := by
  by_cases hread : readReg 8 s = 1
  · exact .inl ⟨hread, syscallHandle_of_read hread⟩
  · by_cases hwrite : readReg 8 s = 2
    · rw [syscallHandle_of_write hwrite]
      cases hpa : translated (readReg 9 s) s with
      | some pa => exact .inr (.inl ⟨hwrite, pa, rfl, sysWrite_of_some hpa⟩)
      | none => exact .inr (.inr (.inl ⟨hwrite, rfl, sysWrite_of_none hpa⟩))
    · exact .inr (.inr (.inr ⟨hread, hwrite, syscallHandle_of_invalid hread hwrite⟩))

/-- The handler writes no register, no memory, no pc, no status, no configuration and no boot phase. -/
theorem syscallHandle_frame (s : State) :
    (syscallHandle s).regs = s.regs ∧ (syscallHandle s).mem = s.mem ∧ (syscallHandle s).pc = s.pc ∧
    (syscallHandle s).status = s.status ∧ (syscallHandle s).config = s.config ∧
    (syscallHandle s).boot = s.boot := by
  rcases syscallHandle_cases s with ⟨_, e⟩ | ⟨_, pa, _, e⟩ | ⟨_, _, e⟩ | ⟨_, _, e⟩ <;> rw [e] <;>
    exact ⟨rfl, rfl, rfl, rfl, rfl, rfl⟩

end Syscall

/-- Settles O21: the frame is the handler's, and each clause is one of its four ways. -/
theorem syscallDispatchesOnR8 : Obligations.SyscallDispatchesOnR8 := by
  unfold Obligations.SyscallDispatchesOnR8
  refine ⟨rfl, fun s hc => ⟨_, exec_syscall s, ?_⟩⟩
  obtain ⟨hregs, hmem, hpc, hstatus, hconfig, hboot⟩ := syscallHandle_frame s
  refine ⟨by rw [advancePc_pc, hpc], fun r => readReg_congr hregs r, fun pa => physRead_congr hmem hconfig pa,
    hstatus, hconfig, hboot, fun hread => ?_, fun hwrite hacc => ?_, fun hwrite hacc => ?_, fun hread hwrite => ?_⟩
  · rw [syscallHandle_of_read hread]
    exact ⟨rfl, rfl, rfl⟩
  · obtain ⟨pa, hpa⟩ := translated_of_accessible hc hacc
    rw [syscallHandle_of_write hwrite, sysWrite_of_some hpa]
    exact ⟨pa, hpa, rfl, rfl, rfl⟩
  · rw [syscallHandle_of_write hwrite, sysWrite_of_none (translated_of_not_accessible hc hacc)]
    exact ⟨rfl, rfl, rfl⟩
  · rw [syscallHandle_of_invalid hread hwrite]
    exact ⟨rfl, rfl, rfl⟩

/-! ### STOP (R110) -/

theorem exec_stop (s : State) : exec .stop s = .next (setStatus .halted (emit .stopNote s)) := rfl

/-- With no fault pending, the cycle of STOP is the fetch's binding and STOP itself. -/
theorem step_stop {s : State} (hx : executing s = some .stop) (hclean : s.pf = .none) :
    step s = .next (setStatus .halted (emit .stopNote (afterTranslate s.pc s))) :=
  step_of_exec_next hx (exec_stop _) hclean

/-- Settles O23: STOP writes the status and the trace only, and the end-of-cycle check finds no fault. -/
theorem stopHaltsWithoutTheInterruptController : Obligations.StopHaltsWithoutTheInterruptController := by
  unfold Obligations.StopHaltsWithoutTheInterruptController
  exact ⟨rfl, exec_stop, fun _ => step_stop⟩

/-! ### The cycle of a running machine (30_encoding.md R65) -/

section Cycle

variable {s : State} {w : Word} {i : Instr}

theorem step_of_cpuRuns (hruns : cpuRuns s = true) : step s = cycle s := by
  rw [step, if_pos hruns]

theorem fetched_of_translated {pa : Nat} (h : translated s.pc s = some pa) : fetched s = some (physRead pa s) := by
  rw [fetched, h, Option.map_some, physRead_afterTranslate]

theorem executing_of_fetched (hruns : cpuRuns s = true) (hw : fetched s = some w) (hd : decode w = .instr i) :
    executing s = some i :=
  executing_eq_some.mpr ⟨hruns, w, hw, hd⟩

/-- A fault recorded just before the check is logged at the pc, and halts. -/
theorem endOfCycle_raise {f : PendingFault} (hf : f ≠ .none) (s : State) :
    endOfCycle (raise f s) =
      { s with pf := f, status := .halted, trace := s.trace ++ [.interrupt f s.pc] } :=
  endOfCycle_fault hf

/-- The state after a fetch of a Word that is no instruction to execute (R64, R68; 43_system.md R104). -/
def illegalInstruction (s : State) : State :=
  { s with
    space := (afterTranslate s.pc s).space
    pf := .invalidInstruction
    status := .halted
    trace := s.trace ++ [.interrupt .invalidInstruction s.pc] }

theorem endOfCycle_raise_afterTranslate (s : State) :
    endOfCycle (raise .invalidInstruction (afterTranslate s.pc s)) = illegalInstruction s :=
  endOfCycle_raise PendingFault.noConfusion _

theorem step_of_rejected {why : DecodeReject} (hruns : cpuRuns s = true) (hw : fetched s = some w)
    (hd : decode w = .rejected why) : step s = .next (illegalInstruction s) := by
  rw [step_of_cpuRuns hruns, cycle, hw]
  simp only [hd, afterFetch_eq, endOfCycle_raise_afterTranslate]

theorem exec_data (s : State) : exec .data s = .next (raise .invalidInstruction s) := rfl

/-- A data word decodes to `data`, whose meaning raises what the decoder raises for an illegal Word (R104). -/
theorem step_of_dataWord (hruns : cpuRuns s = true) (hw : fetched s = some w) (hop : w.op = 0x01) :
    step s = .next (illegalInstruction s) := by
  have hd : decode w = .instr .data := by
    unfold decode
    rw [hop]
    rfl
  rw [step_executing (executing_of_fetched hruns hw hd), exec_data, finishCycle, endOfCycle_raise_afterTranslate]

/-- A Word that is not legal is rejected. -/
theorem exists_rejected_of_not_legal (h : ¬ w.Legal) : ∃ why, decode w = .rejected why := by
  cases hd : decode w with
  | instr i => exact absurd ((exists_decode_iff_legal w).mp ⟨i, hd⟩) h
  | rejected why => exact ⟨why, rfl⟩

/-- The Words that R64 and R68 call illegal are DATA and those that are not legal. -/
theorem illegal_iff (w : Word) :
    (0x1A < w.op.toNat ∨ w.op = 0x01 ∨ (usesRa w.op = true ∧ ¬ (0 ≤ w.ra.toInt ∧ w.ra.toInt < 10)) ∨
      (usesRb w.op = true ∧ ¬ (0 ≤ w.rb.toInt ∧ w.rb.toInt < 10))) ↔ w.op = 0x01 ∨ ¬ w.Legal := by
  rw [Word.Legal, ← Nat.not_le]
  tauto

end Cycle

/-- Settles O20: DATA records InvalidInstruction, and the end-of-cycle check logs it. -/
theorem dataWordsFaultWhenFetched : Obligations.DataWordsFaultWhenFetched := by
  unfold Obligations.DataWordsFaultWhenFetched
  exact ⟨exec_data, fun _ _ => step_of_dataWord⟩

/-- Settles O24: the Word at the pc is the one fetched, so the instruction is the one executing. -/
theorem stepRunsTheDecodedInstruction : Obligations.StepRunsTheDecodedInstruction := by
  unfold Obligations.StepRunsTheDecodedInstruction
  intro s pa i hruns hpa hd
  exact step_executing (executing_of_fetched hruns (fetched_of_translated hpa) hd)

/-- Settles O25: the failed translation binds nothing, and the check logs what the fetch recorded. -/
theorem fetchFaultChangesOnlyPf : Obligations.FetchFaultChangesOnlyPf := by
  unfold Obligations.FetchFaultChangesOnlyPf
  intro s hc hruns hacc
  have hnone : translated s.pc s = none := translated_of_not_accessible hc hacc
  rw [step_of_cpuRuns hruns, cycle, fetched_eq_none.mpr hnone]
  simp only [afterFetch_eq, afterTranslate_of_none hnone]
  exact congrArg _ (endOfCycle_raise PendingFault.noConfusion s)

/-- Settles O26: a Word is rejected exactly when it is not legal, and of the legal ones only DATA does not run on. -/
theorem illegalWordsRaiseInvalidInstruction : Obligations.IllegalWordsRaiseInvalidInstruction := by
  unfold Obligations.IllegalWordsRaiseInvalidInstruction
  intro s w hruns hw
  rw [illegal_iff]
  constructor
  · rintro (hop | hillegal)
    · exact step_of_dataWord hruns hw hop
    · obtain ⟨why, hd⟩ := exists_rejected_of_not_legal hillegal
      exact step_of_rejected hruns hw hd
  · intro hexecutes
    obtain ⟨hop, hlegal⟩ := not_or.mp hexecutes
    obtain ⟨i, hd⟩ := (exists_decode_iff_legal w).mpr (not_not.mp hlegal)
    refine ⟨i, ?_, hd, step_executing (executing_of_fetched hruns hw hd)⟩
    rintro rfl
    have henc : (encode .data).op = w.op := by rw [encode_of_decode hd, Word.canonical]
    exact hop henc.symm

end Sys2Proof.Machine
end

section
/-! SUPPORT. What a step can do to each part of the state: the run state and the trace, the pc of a fault, the registers
and memory (10_state.md R21, R33; 20_memory.md R57; 60_exceptions.md R114 to R117). -/

namespace Sys2Proof.Machine

/-! ### Every step answers -/

/-- No instruction faults or is refused by the model. -/
theorem exists_exec_next (i : Instr) (s : State) : ∃ t, exec i s = .next t := by
  cases i <;> exact ⟨_, rfl⟩

theorem exists_cycle_next (s : State) : ∃ t, cycle s = .next t := by
  unfold cycle
  split
  · exact ⟨_, rfl⟩
  · split
    · exact ⟨_, rfl⟩
    · next i _ =>
      obtain ⟨u, hu⟩ := exists_exec_next i (afterFetch s)
      exact ⟨endOfCycle u, by rw [hu, finishCycle]⟩

/-- Settles O30: a cycle answers a next state on each of its three ways, and outside a cycle the state is repeated. -/
theorem everyStepAnswersANextState : Obligations.EveryStepAnswersANextState := by
  unfold Obligations.EveryStepAnswersANextState
  intro s
  unfold step
  split
  · exact exists_cycle_next s
  · exact ⟨s, rfl⟩

/-- Settles O34: no cycle body and no end-of-cycle check writes either field. -/
theorem configurationNeverChanges : Obligations.ConfigurationNeverChanges := by
  unfold Obligations.ConfigurationNeverChanges
  exact fun _ _ => step_fixed

/-! ### The run state after a cycle body -/

/-- STOP has been executed: halted directly, the pc kept (43_system.md R110). -/
def RunStopped (s u : State) : Prop :=
  u.pf = s.pf ∧ u.status = .halted ∧ u.pc = s.pc ∧ u.trace = s.trace ++ [.stopNote]

section Cycle

variable {s t u : State}

/-- What a cycle does to the run state before its check. -/
theorem CycleBody.run (hruns : cpuRuns s = true) (h : CycleBody s u) :
    RunSame s u ∨ RunFault s u ∨ (executing s = some .syscall ∧ RunEvent s u) ∨
      (executing s = some .stop ∧ RunStopped s u) := by
  cases h with
  | fetchFault _ hu =>
    subst hu
    exact .inr (.inl ⟨PendingFault.noConfusion, PendingFault.noConfusion, rfl, rfl⟩)
  | illegal _ _ _ _ hu =>
    subst hu
    exact .inr (.inl ⟨PendingFault.noConfusion, PendingFault.noConfusion, rfl, rfl⟩)
  | executed w i hw hd hexec =>
    have hx : executing s = some i := executing_of_fetched hruns hw hd
    rcases (exec_can hexec).run with hsame | hfault | ⟨rfl, hevent⟩ | ⟨rfl, hstop⟩
    · exact .inl hsame
    · exact .inr (.inl hfault)
    · exact .inr (.inr (.inl ⟨hx, hevent⟩))
    · exact .inr (.inr (.inr ⟨hx, hstop⟩))

theorem exists_body_of_step (hruns : cpuRuns s = true) (hstep : step s = .next t) :
    ∃ u, CycleBody s u ∧ t = endOfCycle u := by
  rcases step_cases hstep with ⟨hidle, _⟩ | ⟨_, hbody⟩
  · rw [hruns] at hidle
    cases hidle
  · exact hbody

/-- The check after a recorded fault logs it behind the trace of the cycle's start. -/
theorem RunFault.endOfCycle_logs (h : RunFault s u) :
    (endOfCycle u).status = .halted ∧ (endOfCycle u).trace = s.trace ++ [.interrupt u.pf u.pc] := by
  obtain ⟨hfault, -, -, htrace⟩ := h
  rw [endOfCycle_fault hfault, htrace]
  exact ⟨rfl, rfl⟩

/-- A cycle that starts clean and ends with a fault recorded it in its body. -/
theorem CycleBody.runFault_of_pf (hruns : cpuRuns s = true) (hclean : s.pf = .none) (h : CycleBody s u)
    (hfault : u.pf ≠ .none) : RunFault s u := by
  rcases h.run hruns with ⟨hpf, _⟩ | hrun | ⟨_, hpf, _⟩ | ⟨_, hpf, _⟩
  · exact absurd (hpf.trans hclean) hfault
  · exact hrun
  · exact absurd (hpf.trans hclean) hfault
  · exact absurd (hpf.trans hclean) hfault

end Cycle

/-! ### The run state machine (60_exceptions.md R117) -/

theorem step_of_halted {s : State} (h : s.status = .halted) : step s = .next s := by
  have hidle : ¬ cpuRuns s = true := by simp [cpuRuns_iff, h]
  rw [step, if_neg hidle]

/-- A cycle that starts clean, ends clean and does not execute STOP runs on, with no Interrupt logged. -/
theorem CycleBody.runs_on {s u : State} (hruns : cpuRuns s = true) (h : CycleBody s u) (hclean : u.pf = .none)
    (hstop : executing s ≠ some .stop) : u.status = .running ∧ ∀ k v, u.trace ≠ s.trace ++ [.interrupt k v] := by
  obtain ⟨-, hrunning⟩ := (cpuRuns_iff s).mp hruns
  rcases h.run hruns with ⟨_, hstatus, htrace⟩ | ⟨hfault, _⟩ | ⟨_, _, hstatus, e, hterm, htrace⟩ | ⟨hx, _⟩
  · exact ⟨hstatus.trans hrunning, by simp [htrace]⟩
  · exact absurd hclean hfault
  · refine ⟨hstatus.trans hrunning, fun k v heq => ?_⟩
    rw [htrace, List.append_cancel_left_eq, List.singleton_inj] at heq
    exact ne_interrupt_of_not_terminal hterm k v heq
  · exact absurd hx hstop

/-- Settles O29: the four ways of a cycle body decide how its cycle ends, and no cycle runs in Halted. -/
theorem runStateMachineTransitions : Obligations.RunStateMachineTransitions := by
  unfold Obligations.RunStateMachineTransitions
  refine ⟨fun c r => ⟨construct_status c r, construct_pf c r⟩, fun s t hruns hclean hstep => ?_,
    fun _ => step_of_halted⟩
  refine ⟨fun hpf hstop => ?_, fun hfault => ?_, fun hx => ?_⟩
  · obtain ⟨u, hbody, rfl⟩ := exists_body_of_step hruns hstep
    rw [endOfCycle_pf] at hpf
    rw [endOfCycle_none hpf]
    exact hbody.runs_on hruns hpf hstop
  · obtain ⟨u, hbody, rfl⟩ := exists_body_of_step hruns hstep
    rw [endOfCycle_pf] at hfault ⊢
    rw [endOfCycle_pc]
    exact (hbody.runFault_of_pf hruns hclean hfault).endOfCycle_logs
  · have ht := hstep.symm.trans (step_stop hx hclean)
    cases ht
    exact ⟨hclean, rfl, rfl⟩

/-! ### The pc of a fault (D6, D7, D25) -/

/-- Where the pc stands when the body of a cycle, executing `x` if it gets that far, leaves a new fault. -/
def FaultPc (x : Option Instr) (s u : State) : Prop :=
  u.pf = s.pf ∨ (u.pf = .overflow ∧ u.pc = s.pc + 1) ∨ (u.pf = .invalidInstruction ∧ u.pc = s.pc) ∨
    (u.pf = .invalidAddress ∧ u.pc = if x = some .syscall then s.pc + 1 else s.pc)

section FaultPc

variable {i : Instr} {s u : State}

theorem withTranslated_faultPc (hi : i ≠ .syscall) (va : I32) (s : State) {rest : Nat → State → State}
    (hrest : ∀ pa v, (rest pa v).pf = v.pf) : FaultPc (some i) s (withTranslated va s rest) := by
  rcases withTranslated_cases va s rest with ⟨pa, _, e⟩ | ⟨_, e⟩ <;> rw [e]
  · exact .inl (hrest pa _)
  · exact .inr (.inr (.inr ⟨rfl, by simp [hi]⟩))

theorem jumpIf_faultPc (b : Bool) (v : I32) (s : State) : FaultPc (some i) s (jumpIf b v s) := by
  rw [jumpIf_eq_setPc]
  exact .inl rfl

theorem jumpThroughIf_faultPc (hi : i ≠ .syscall) (b : Bool) (va : I32) (s : State) :
    FaultPc (some i) s (jumpThroughIf b va s) := by
  cases b with
  | true => exact withTranslated_faultPc hi va s fun _ _ => rfl
  | false => exact .inl rfl

theorem writeResult_faultPc (ra : Reg) (n : Int) (s : State) : FaultPc (some i) s (writeResult ra n s) := by
  obtain ⟨-, -, hpc, hpf, -⟩ := writeResult_effect ra n s
  split at hpf
  · exact .inl hpf
  · exact .inr (.inl ⟨hpf, hpc⟩)

theorem syscall_faultPc (s : State) : FaultPc (some .syscall) s (advancePc (syscallHandle s)) := by
  rcases syscallHandle_cases s with ⟨_, e⟩ | ⟨_, pa, _, e⟩ | ⟨_, _, e⟩ | ⟨_, _, e⟩ <;> rw [e]
  · exact .inl rfl
  · exact .inl rfl
  · exact .inr (.inr (.inr ⟨rfl, rfl⟩))
  · exact .inl rfl

theorem exec_faultPc (h : exec i s = .next u) : FaultPc (some i) s u := by
  cases i with
  | empty | ldi | move | jmp | stop => cases h; exact .inl rfl
  | data => cases h; exact .inr (.inr (.inl ⟨rfl, rfl⟩))
  | ldd | ldx | std | stx | jmpim => cases h; exact withTranslated_faultPc Instr.noConfusion _ s fun _ _ => rfl
  | add | sub | mult | addi | subi => cases h; exact writeResult_faultPc _ _ s
  | jmpig | jmpil | jmpie | jmpigk | jmpilk | jmpiek | jmpigt => cases h; exact jumpIf_faultPc _ _ s
  | jmpigm | jmpilm | jmpiem => cases h; exact jumpThroughIf_faultPc Instr.noConfusion _ _ s
  | syscall => cases h; exact syscall_faultPc s

theorem executing_of_fetchFault (h : fetched s = none) : executing s = none := by
  by_contra hx
  obtain ⟨i, hx⟩ := Option.ne_none_iff_exists'.mp hx
  obtain ⟨-, w, hw, -⟩ := executing_eq_some.mp hx
  cases h.symm.trans hw

theorem CycleBody.faultPc (hruns : cpuRuns s = true) (h : CycleBody s u) : FaultPc (executing s) s u := by
  cases h with
  | fetchFault hw hu =>
    subst hu
    rw [executing_of_fetchFault hw]
    exact .inr (.inr (.inr ⟨rfl, rfl⟩))
  | illegal _ _ _ _ hu =>
    subst hu
    exact .inr (.inr (.inl ⟨rfl, rfl⟩))
  | executed w i hw hd hexec =>
    rw [executing_of_fetched hruns hw hd]
    have hpc : FaultPc (some i) (afterFetch s) u := exec_faultPc hexec
    exact hpc

end FaultPc

/-- Settles O28: the check keeps the pc that the body left, and `FaultPc` says where that is for each kind. -/
theorem loggedPcOfEachFault : Obligations.LoggedPcOfEachFault := by
  unfold Obligations.LoggedPcOfEachFault
  intro s t hruns hclean hstep hfault
  obtain ⟨u, hbody, rfl⟩ := exists_body_of_step hruns hstep
  rw [endOfCycle_pf] at hfault
  obtain ⟨hhalted, htrace⟩ := (hbody.runFault_of_pf hruns hclean hfault).endOfCycle_logs
  rw [endOfCycle_pf, endOfCycle_pc]
  refine ⟨hhalted, htrace, ?_⟩
  rcases hbody.faultPc hruns with hpf | ⟨hpf, hpc⟩ | ⟨hpf, hpc⟩ | ⟨hpf, hpc⟩
  · exact absurd (hpf.trans hclean) hfault
  · simp [hpf, hpc]
  · simp [hpf, hpc]
  · simp +contextual [hpf, hpc]

/-! ### Registers and memory (10_state.md R21, 20_memory.md R57) -/

section Frame

variable {s t : State}

/-- A step keeps registers and memory, or executes an instruction. -/
theorem step_keeps_or_executes (h : step s = .next t) :
    (t.regs = s.regs ∧ t.mem = s.mem) ∨
      ∃ i u, executing s = some i ∧ ExecCan i (afterTranslate s.pc s) u ∧ t = endOfCycle u := by
  rcases step_cases h with ⟨_, rfl⟩ | ⟨hruns, u, hbody, rfl⟩
  · exact .inl ⟨rfl, rfl⟩
  · cases hbody with
    | fetchFault _ hu =>
      subst hu
      exact .inl ⟨endOfCycle_regs _, endOfCycle_mem _⟩
    | illegal _ _ _ _ hu =>
      subst hu
      exact .inl ⟨endOfCycle_regs _, endOfCycle_mem _⟩
    | executed w i hw hd hexec => exact .inr ⟨i, u, executing_of_fetched hruns hw hd, exec_can hexec, rfl⟩

/-- A register that an instruction changes is its destination. -/
theorem ExecCan.destReg_of_ne {i : Instr} {r : Reg} (h : ExecCan i s t) (hne : readReg r t ≠ readReg r s) :
    destReg i = some r := by
  rcases h.regs with hregs | ⟨ra, v, hdest, hregs⟩
  · exact absurd (readReg_congr hregs r) hne
  · have hread : readReg r t = readReg r (writeReg ra v s) := readReg_congr hregs r
    by_cases hr : r = ra
    · rw [hr, hdest]
    · exact absurd (hread.trans (readReg_writeReg_ne s ra r v hr)) hne

/-- A slot that an instruction changes holds the data word of a store. -/
theorem ExecCan.store_of_ne {i : Instr} {pa : Nat} (h : ExecCan i s t) (hne : physRead pa t ≠ physRead pa s) :
    isStore i = true ∧ ∃ v, physRead pa t = dataWord v := by
  rcases h.mem with hmem | ⟨hstore, va, qa, v, _, hmem⟩
  · exact absurd (physRead_congr hmem h.config pa) hne
  · have hread : physRead pa t = physRead pa (physWrite qa (dataWord v) s) :=
      physRead_congr (s := physWrite qa (dataWord v) s) hmem h.config pa
    refine ⟨hstore, v, ?_⟩
    by_cases hp : pa = qa
    · rw [hread, hp, physRead_physWrite_same]
    · exact absurd (hread.trans (physRead_physWrite_ne qa pa _ s hp)) hne

end Frame

/-- Settles O32: only an executed instruction writes a register, and only its destination. -/
theorem onlyTheDestinationRegisterChanges : Obligations.OnlyTheDestinationRegisterChanges := by
  unfold Obligations.OnlyTheDestinationRegisterChanges
  intro s t r hstep hne
  rcases step_keeps_or_executes hstep with ⟨hregs, _⟩ | ⟨i, u, hx, hcan, rfl⟩
  · exact absurd (readReg_congr hregs r) hne
  · rw [readReg_endOfCycle] at hne
    exact ⟨i, hx, hcan.destReg_of_ne hne⟩

/-- Settles O31: only an executed instruction writes memory, a store, and only by a data word. -/
theorem onlyStoresChangeMemory : Obligations.OnlyStoresChangeMemory := by
  unfold Obligations.OnlyStoresChangeMemory
  intro s t pa hstep hne
  rcases step_keeps_or_executes hstep with ⟨_, hmem⟩ | ⟨i, u, hx, hcan, rfl⟩
  · exact absurd (physRead_congr hmem (step_fixed hstep).1 pa) hne
  · rw [physRead_endOfCycle] at hne ⊢
    obtain ⟨hstore, v, hv⟩ := hcan.store_of_ne hne
    exact ⟨i, v, hx, hstore, hv⟩

/-! ### The trace (10_state.md R33, 43_system.md R108) -/

section Trace

variable {s u : State} {new : List Event} {v : I32}

theorem out_not_mem_of_trace_eq (hsame : u.trace = s.trace) (htrace : u.trace = s.trace ++ new) :
    .out v ∉ new := by
  have hnil : new = [] := by simpa using hsame.symm.trans htrace
  rw [hnil]
  exact List.not_mem_nil

/-- The handler emits a value only for selector 2. -/
theorem syscallHandle_out (htrace : (syscallHandle s).trace = s.trace ++ new) (hv : .out v ∈ new) :
    readReg 8 s = 2 := by
  rcases syscallHandle_cases s with ⟨_, e⟩ | ⟨hwrite, _⟩ | ⟨hwrite, _⟩ | ⟨_, _, e⟩
  · rw [e] at htrace
    exact absurd hv (out_not_mem_of_trace_eq rfl htrace)
  · exact hwrite
  · exact hwrite
  · rw [e, emit_trace, List.append_cancel_left_eq] at htrace
    simp [← htrace] at hv

/-- An instruction that emits a value is SYSCALL with 2 in r8. -/
theorem exec_out {i : Instr} (h : exec i s = .next u) (htrace : u.trace = s.trace ++ new) (hv : .out v ∈ new) :
    i = .syscall ∧ readReg 8 s = 2 := by
  rcases (exec_can h).run with ⟨_, _, hsame⟩ | ⟨_, _, _, hsame⟩ | ⟨rfl, _⟩ | ⟨_, _, _, _, hstop⟩
  · exact absurd hv (out_not_mem_of_trace_eq hsame htrace)
  · exact absurd hv (out_not_mem_of_trace_eq hsame htrace)
  · cases h
    exact ⟨rfl, syscallHandle_out htrace hv⟩
  · rw [hstop, List.append_cancel_left_eq] at htrace
    simp [← htrace] at hv

theorem CycleBody.out (hruns : cpuRuns s = true) (h : CycleBody s u) (htrace : u.trace = s.trace ++ new)
    (hv : .out v ∈ new) : executing s = some .syscall ∧ readReg 8 s = 2 := by
  cases h with
  | fetchFault _ hu =>
    subst hu
    exact absurd hv (out_not_mem_of_trace_eq rfl htrace)
  | illegal _ _ _ _ hu =>
    subst hu
    exact absurd hv (out_not_mem_of_trace_eq rfl htrace)
  | executed w i hw hd hexec =>
    obtain ⟨rfl, hsel⟩ := exec_out hexec htrace hv
    exact ⟨executing_of_fetched hruns hw hd, hsel⟩

end Trace

/-- Settles O33: a cycle body logs nothing, one event, or leaves the one Interrupt to the check. -/
theorem traceOnlyGrowsAndOnlySyscallWriteOutputs : Obligations.TraceOnlyGrowsAndOnlySyscallWriteOutputs := by
  unfold Obligations.TraceOnlyGrowsAndOnlySyscallWriteOutputs
  intro s t hclean hstep
  rcases step_cases hstep with ⟨_, rfl⟩ | ⟨hruns, u, hbody, rfl⟩
  · exact ⟨[], by simp⟩
  rcases hbody.run hruns with ⟨hpf, _, htrace⟩ | hfault | ⟨_, hpf, _, e, _, htrace⟩ | ⟨_, hpf, _, _, htrace⟩
  · exact ⟨[], by simp [endOfCycle_none (hpf.trans hclean), htrace]⟩
  · exact ⟨_, hfault.endOfCycle_logs.2, by simp⟩
  · rw [endOfCycle_none (hpf.trans hclean)]
    exact ⟨[e], htrace, le_refl 1, fun _ => hbody.out hruns htrace⟩
  · exact ⟨[.stopNote], by simp [endOfCycle_none (hpf.trans hclean), htrace]⟩

end Sys2Proof.Machine
end

section
/-! SUPPORT. The invariant `Safe`, part by part: what constructs it, and that every step and every port keeps it
(10_state.md R27, R30, R31; 20_memory.md R43; 60_exceptions.md R117 to R119). -/

namespace Sys2Proof.Machine

section Parts

variable {s t u : State}

/-! ### Memory -/

theorem MemInv.congr (h : MemInv s) (hmem : t.mem = s.mem) (hconfig : t.config = s.config) : MemInv t where
  canonical := by
    rw [State.empty, hconfig, hmem]
    exact h.canonical
  physical := by
    rw [hmem, hconfig]
    exact h.physical

theorem memInv_physWrite (h : MemInv s) {pa : Nat} (hpa : pa < s.config.physicalSize) (w : Word) :
    MemInv (physWrite pa w s) where
  canonical := wf_memSet s.empty pa w h.canonical
  physical := by
    intro qa v hv
    rcases lookup_memSet hv with rfl | hold
    · exact hpa
    · exact h.physical qa v hold

theorem step_keeps_memInv (h : Safe s) (hstep : step s = .next t) : MemInv t := by
  obtain ⟨hconfig, -⟩ := step_fixed hstep
  rcases step_mem hstep with hmem | ⟨pa, v, a, va, ⟨b, rfl⟩, hpa, hmem⟩
  · exact h.mem.congr hmem hconfig
  · have hlt : pa < s.config.physicalSize := translate_lt h.config_accepted (translate_inv h.space b) hpa
    exact (memInv_physWrite h.mem hlt (dataWord v)).congr hmem hconfig

/-! ### The address space -/

theorem step_keeps_spaceInv (h : SpaceInv s.config s.space) (hstep : step s = .next t) :
    SpaceInv t.config t.space := by
  rw [(step_fixed hstep).1]
  exact step_space (P := SpaceInv s.config) (fun _ va ha => translate_inv ha va) h hstep

/-! ### The run state -/

theorem runInv_of_running (hrunning : s.status = .running) (hclean : s.pf = .none)
    (hquiet : ∀ e ∈ s.trace, e.terminal = false) : RunInv s where
  running_clean := fun _ => ⟨hclean, hquiet⟩
  halted_logged := fun hhalted => by cases hrunning.symm.trans hhalted
  pf_not_stop := by
    rw [hclean]
    exact PendingFault.noConfusion
  not_started := fun _ => hrunning

/-- A machine that has started and halted, its last event the first that ends a run. -/
theorem runInv_of_halted {earlier : List Event} {last : Event} (hstarted : s.boot = .started)
    (hhalted : s.status = .halted) (hpf : s.pf ≠ .stop) (htrace : s.trace = earlier ++ [last])
    (hquiet : ∀ e ∈ earlier, e.terminal = false)
    (hlast : last = .stopNote ∧ s.pf = .none ∨ last = .interrupt s.pf s.pc ∧ s.pf ≠ .none) : RunInv s where
  running_clean := fun hrunning => by cases hhalted.symm.trans hrunning
  halted_logged := fun _ => ⟨earlier, last, htrace, hquiet, hlast⟩
  pf_not_stop := hpf
  not_started := fun hboot => absurd hstarted hboot

theorem step_keeps_runInv (h : RunInv s) (hstep : step s = .next t) : RunInv t := by
  rcases step_cases hstep with ⟨_, rfl⟩ | ⟨hruns, u, hbody, rfl⟩
  · exact h
  obtain ⟨hstarted, hrunning⟩ := (cpuRuns_iff s).mp hruns
  obtain ⟨hclean, hquiet⟩ := h.running_clean hrunning
  have hboot : (endOfCycle u).boot = .started := (step_fixed hstep).2.trans hstarted
  rcases hbody.run hruns with ⟨hpf, hstatus, htrace⟩ | hfault | ⟨_, hpf, hstatus, e, hterm, htrace⟩ |
    ⟨_, hpf, hhalted, _, htrace⟩
  · rw [endOfCycle_none (hpf.trans hclean)]
    exact runInv_of_running (hstatus.trans hrunning) (hpf.trans hclean) (htrace ▸ hquiet)
  · obtain ⟨hhalted, htrace⟩ := hfault.endOfCycle_logs
    obtain ⟨hpf, hstop, -⟩ := hfault
    refine runInv_of_halted hboot hhalted ?_ htrace hquiet (.inr ?_)
    · rwa [endOfCycle_pf]
    · rw [endOfCycle_pf, endOfCycle_pc]
      exact ⟨rfl, hpf⟩
  · rw [endOfCycle_none (hpf.trans hclean)]
    refine runInv_of_running (hstatus.trans hrunning) (hpf.trans hclean) ?_
    rw [htrace]
    exact List.forall_mem_append.mpr ⟨hquiet, List.forall_mem_singleton.mpr hterm⟩
  · rw [endOfCycle_none (hpf.trans hclean)] at hboot ⊢
    refine runInv_of_halted hboot hhalted ?_ htrace hquiet (.inl ⟨rfl, hpf.trans hclean⟩)
    rw [hpf.trans hclean]
    exact PendingFault.noConfusion

end Parts

/-! ### Steps and runs -/

theorem step_keeps_safe {s t : State} (h : Safe s) (hstep : step s = .next t) : Safe t where
  config_accepted := by
    rw [(step_fixed hstep).1]
    exact h.config_accepted
  space := step_keeps_spaceInv h.space hstep
  mem := step_keeps_memInv h hstep
  run := step_keeps_runInv h.run hstep

/-- Settles O43: each part of `Safe` is kept by what a step can do to its fields. -/
theorem stepKeepsTheInvariant : Obligations.StepKeepsTheInvariant := by
  unfold Obligations.StepKeepsTheInvariant
  exact fun _ _ => step_keeps_safe

theorem run_keeps_safe {k : Nat} {s t : State} (h : Safe s) (hrun : Sys2Proof.core.run k s = .next t) : Safe t :=
  run_keeps (P := Safe) (fun _ _ => step_keeps_safe) h hrun

/-- In a sound run state the event that ends the run is the last one and the only one of its kind. -/
theorem RunInv.terminal_last {s : State} (h : RunInv s) {before after : List Event} {e : Event}
    (htrace : s.trace = before ++ e :: after) (hterm : e.terminal = true) :
    after = [] ∧ ∀ d ∈ before, d.terminal = false := by
  have hmem : e ∈ s.trace := by simp [htrace]
  cases hstatus : s.status with
  | running =>
    have hquiet := (h.running_clean hstatus).2 e hmem
    rw [hterm] at hquiet
    cases hquiet
  | halted =>
    obtain ⟨earlier, last, hlogged, hquiet, -⟩ := h.halted_logged hstatus
    rw [htrace] at hlogged
    rcases List.eq_nil_or_concat after with rfl | ⟨rest, d, rfl⟩
    · obtain ⟨rfl, -⟩ := List.append_inj' hlogged rfl
      exact ⟨rfl, hquiet⟩
    · rw [List.concat_eq_append, ← List.cons_append, ← List.append_assoc] at hlogged
      obtain ⟨rfl, -⟩ := List.append_inj' hlogged rfl
      have hearly := hquiet e (by simp)
      rw [hterm] at hearly
      cases hearly

/-- Settles O46: the run keeps `Safe`, whose run state has the property. -/
theorem terminalEventIsOnceAndLast : Obligations.TerminalEventIsOnceAndLast := by
  unfold Obligations.TerminalEventIsOnceAndLast
  intro k s t h hrun before e after
  exact (run_keeps_safe h hrun).run.terminal_last

/-! ### Reset and the ports -/

theorem safe_construct {c : Configuration} (hc : c.accepted = true) (r : Vector I32 Config.nRegs) :
    Safe (State.construct c r) where
  config_accepted := hc
  space := spaceInv_empty c
  mem := ⟨rfl, fun _ _ h => nomatch h⟩
  run := runInv_of_running rfl rfl fun _ h => nomatch h

/-- Settles O44: the constructed state has nothing mapped, nothing written and nothing logged. -/
theorem resetIsSafe : Obligations.ResetIsSafe := by
  unfold Obligations.ResetIsSafe
  exact ⟨fun _ r hc => safe_construct hc r, safe_construct (by decide) _⟩

section Ports

variable {s : State}

theorem loadWords_memInv (image : List Word) (i : Nat) (hc : s.config.accepted = true)
    (hspace : SpaceInv s.config s.space) (hmem : MemInv s) : MemInv (loadWords i image s) := by
  induction image generalizing i s with
  | nil => exact hmem.congr rfl rfl
  | cons w rest ih =>
    unfold loadWords
    split
    · next pa hpa =>
      have hbound : MemInv (afterTranslate (BitVec.ofNat 32 (Config.loadBase + i)) s) := hmem.congr rfl rfl
      exact ih _ hc (translate_inv hspace _) (memInv_physWrite hbound (translate_lt hc hspace hpa) w)
    · exact hmem.congr rfl rfl

theorem safe_loadWords (h : Safe s) (hboot : s.boot ≠ .started) (image : List Word) :
    Safe (loadWords 0 image s) := by
  obtain ⟨-, -, hpf, hstatus, htrace, hconfig⟩ := loadWords_keeps image 0 s
  have hrunning : s.status = .running := h.run.not_started hboot
  obtain ⟨hclean, hquiet⟩ := h.run.running_clean hrunning
  refine ⟨?_, ?_, loadWords_memInv image 0 h.config_accepted h.space h.mem,
    runInv_of_running (hstatus.trans hrunning) (hpf.trans hclean) (htrace ▸ hquiet)⟩
  · rw [hconfig]
    exact h.config_accepted
  · rw [hconfig]
    exact loadWords_space (P := SpaceInv s.config) image 0 s (fun _ va ha => translate_inv ha va) h.space

theorem safe_start (h : Safe s) (hboot : s.boot ≠ .started) (a : I32) :
    Safe { setPc a s with boot := .started } := by
  have hrunning : s.status = .running := h.run.not_started hboot
  obtain ⟨hclean, hquiet⟩ := h.run.running_clean hrunning
  exact ⟨h.config_accepted, h.space, h.mem.congr rfl rfl, runInv_of_running hrunning hclean hquiet⟩

theorem safe_with_space (h : Safe s) {a : AddressSpace} (ha : SpaceInv s.config a) : Safe { s with space := a } := by
  obtain ⟨hclean, hlogged, hstop, hstarted⟩ := h.run
  exact ⟨h.config_accepted, ha, h.mem.congr rfl rfl, ⟨hclean, hlogged, hstop, hstarted⟩⟩

theorem safe_dumpWords (h : Safe s) (n : Nat) (lo : I32) : Safe (dumpWords lo n s).1 := by
  rw [dumpWords_frame]
  exact safe_with_space h (dumpWords_space (P := SpaceInv s.config) n lo s (fun _ va ha => translate_inv ha va) h.space)

end Ports

/-- Settles O45: CONFIG constructs, LOAD and DUMP are their loops, and START writes the pc and the boot phase. -/
theorem portsKeepTheInvariant : Obligations.PortsKeepTheInvariant := by
  unfold Obligations.PortsKeepTheInvariant
  refine ⟨fun v p g r e t hport => ?_, fun image s t h hport => ?_, fun a s t h hport => ?_,
    fun lo hi s t words h hport => ?_⟩
  · obtain ⟨c, hc, -, rfl⟩ := exists_construct_of_portConfig hport
    exact safe_construct hc r
  · unfold portLoad at hport
    split at hport
    · next hboot =>
      cases hport
      exact safe_loadWords h (by simp [hboot]) image
    · cases hport
  · unfold portStart at hport
    split at hport
    · next hboot =>
      cases hport
      exact safe_start h (by simp [hboot]) a
    · cases hport
  · unfold portDump at hport
    split at hport
    · cases hport
    · have hsafe := safe_dumpWords h (hi.toInt - lo.toInt).toNat lo
      rwa [Host.Outcome.next.inj hport] at hsafe

end Sys2Proof.Machine
end

section
/-! SUPPORT. The assembler: a line's operands, and the address of a label (30_encoding.md R70). -/

namespace Sys2Proof.Machine

section Operands

variable (program : List AsmLine)

@[simp] theorem asmReg_reg (r : Reg) : asmReg (.reg r) = some (regField r) :=
  if_pos r.isLt

/-- The decimal integer of an Int32 value is read back as that value. -/
@[simp] theorem asmValue_toInt (v : I32) : asmValue program (.number v.toInt) = some v := by
  have hrange : -(2 ^ 31) ≤ v.toInt ∧ v.toInt < 2 ^ 31 := ⟨BitVec.le_toInt v, BitVec.toInt_lt⟩
  rw [asmValue, if_pos hrange, BitVec.ofInt_toInt]

@[simp] theorem asmField_unused (unwritten : I32) (read : AsmOperand → Option I32) (operands : List AsmOperand) :
    asmField false unwritten read operands = some (unwritten, operands) := rfl

@[simp] theorem asmField_used (unwritten : I32) (read : AsmOperand → Option I32) (o : AsmOperand)
    (rest : List AsmOperand) : asmField true unwritten read (o :: rest) = (read o).map fun f => (f, rest) := rfl

theorem tagOf_lineOf (i : Instr) : tagOf (lineOf i).mnemonic = some (encode i).op := by
  cases i <;> rfl

/-- Each field that the tag uses takes the next operand, and no operand is left over. -/
theorem asmWord_lineOf (i : Instr) : asmWord program (lineOf i) = some (encode i) := by
  have hzero : asmValue program (.number 0) = some 0 := asmValue_toInt program 0
  rw [asmWord, tagOf_lineOf]
  cases i <;> simp [lineOf, encode, usesRa, usesRb, usesP, hzero]

end Operands

/-- The label's line is found behind the lines that do not carry the label. -/
theorem labelAddress_of_first {name : String} {before after : List AsmLine} {line : AsmLine}
    (hline : name ∈ line.labels) (hbefore : ∀ l ∈ before, name ∉ l.labels) (a : Nat) :
    labelAddress name a (before ++ line :: after) = some (a + before.length) := by
  induction before generalizing a with
  | nil => exact if_pos hline
  | cons l rest ih =>
    obtain ⟨hl, hrest⟩ := List.forall_mem_cons.mp hbefore
    rw [List.cons_append, labelAddress, if_neg hl, ih hrest, List.length_cons, Nat.add_right_comm, Nat.add_assoc]

/-- Settles O7: the used fields of the tag are the operands of the line, and a label is its first line's address. -/
theorem assembledInstructionIsItsEncoding : Obligations.AssembledInstructionIsItsEncoding := by
  unfold Obligations.AssembledInstructionIsItsEncoding
  refine ⟨fun i program => asmWord_lineOf program i, fun before after line name hline hbefore => ?_⟩
  rw [asmValue, labelAddress_of_first hline hbefore, Option.map_some, Config.loadBase, Nat.zero_add]

end Sys2Proof.Machine
end

section
/-! SUPPORT. The ports CONFIG and START, and the two loops that translate addresses in order: DUMP and the standalone
driver (70_reset_and_hazards.md R131, R134, R136; 20_memory.md R46). -/

namespace Sys2Proof.Machine

/-! ### CONFIG (R131) -/

/-- The condition of the CONFIG port, on the three integers themselves. -/
theorem portConfig_condition_iff (v p g : Int) (e : I32) :
    (0 < v ∧ 0 < p ∧ 0 < g ∧ Configuration.accepted ⟨v.toNat, p.toNat, g.toNat, e⟩ = true) ↔
      (0 < v ∧ 0 < p ∧ 0 < g ∧ v % g = 0 ∧ p % g = 0 ∧ v ≤ 2147483647 ∧ p ≤ 2147483647 ∧ g ≤ 2147483647) := by
  refine and_congr_right fun hv => and_congr_right fun hp => and_congr_right fun hg => ?_
  lift v to ℕ using hv.le
  lift p to ℕ using hp.le
  lift g to ℕ using hg.le
  rw [accepted_iff]
  norm_cast at *
  simp [hv, hp, hg, Config.maxSize]

/-- Settles O48: the port's condition is the legality of the three integers, and the sizes are those integers. -/
theorem configAcceptsExactlyTheLegalSizes : Obligations.ConfigAcceptsExactlyTheLegalSizes := by
  unfold Obligations.ConfigAcceptsExactlyTheLegalSizes
  intro v p g r e
  rw [← portConfig_condition_iff v p g e]
  refine ⟨fun hlegal => ⟨_, if_pos hlegal, ?_⟩, fun hillegal => if_neg hillegal⟩
  obtain ⟨hv, hp, hg, -⟩ := hlegal
  have hvirtual : (v.toNat : Int) = v := Int.toNat_of_nonneg hv.le
  have hphysical : (p.toNat : Int) = p := Int.toNat_of_nonneg hp.le
  have hpage : (g.toNat : Int) = g := Int.toNat_of_nonneg hg.le
  refine ⟨hvirtual, hphysical, hpage, ?_, ?_⟩
  · show ((v.toNat / g.toNat : Nat) : Int) = v / g
    rw [Int.natCast_ediv, hvirtual, hpage]
  · show ((p.toNat / g.toNat : Nat) : Int) = p / g
    rw [Int.natCast_ediv, hphysical, hpage]

/-! ### START (R134) -/

theorem portStart_of_not_loaded {s : State} (h : s.boot ≠ .loaded) (a : I32) :
    portStart a s = .refused .startNotAccepted :=
  if_neg h

theorem step_of_not_started {s : State} (h : s.boot ≠ .started) : step s = .next s := by
  have hidle : ¬ cpuRuns s = true := by simp [cpuRuns_iff, h]
  rw [step, if_neg hidle]

/-- Settles O51: each port reads the boot phase, and a started machine is in none that START or LOAD accepts. -/
theorem startIsAcceptedOnceAfterASuccessfulLoad : Obligations.StartIsAcceptedOnceAfterASuccessfulLoad := by
  unfold Obligations.StartIsAcceptedOnceAfterASuccessfulLoad
  intro a s
  refine ⟨fun hloaded => ⟨_, if_pos hloaded, rfl, fun hrunning => ?_, fun b => ?_, fun image => ?_⟩,
    fun h => portStart_of_not_loaded h a, step_of_not_started⟩
  · exact (cpuRuns_iff _).mpr ⟨rfl, hrunning⟩
  · exact portStart_of_not_loaded BootPhase.noConfusion b
  · exact if_neg BootPhase.noConfusion

/-! ### Translating addresses in order -/

section InOrder

variable {c : Configuration} {va : I32} {a : AddressSpace}

theorem spaceAfter_append (c : Configuration) (before after : List I32) (a : AddressSpace) :
    spaceAfter c (before ++ after) a = spaceAfter c after (spaceAfter c before a) :=
  List.foldl_append

theorem spaceAfter_keeps_binding (c : Configuration) (vas : List I32) {page f : Nat}
    (h : frameOf page a.pageTable = some f) : frameOf page (spaceAfter c vas a).pageTable = some f :=
  spaceAfter_keeps (P := fun b => frameOf page b.pageTable = some f) c vas a
    (fun b va => translate_keeps_binding c va b) h

/-- With no frame free, translating any addresses changes nothing. -/
theorem spaceAfter_exhausted (h : firstFree a.occupied 0 c.frameCount = none) (vas : List I32) :
    spaceAfter c vas a = a :=
  spaceAfter_keeps (P := fun b => b = a) c vas a (fun _ va hb => hb ▸ translate_exhausted h va) rfl

/-- The two causes of a failure (20_memory.md R40). -/
theorem translate_none_causes (h : (a.translate c va).1 = none) :
    ¬ PageInRange c va ∨
      (frameOf (pageOf c va).toNat a.pageTable = none ∧ firstFree a.occupied 0 c.frameCount = none) := by
  rcases translate_cases c va a with ⟨hr, _⟩ | ⟨_, f, _, e⟩ | ⟨_, _, f, _, e⟩ | ⟨_, hun, hfull, _⟩
  · exact .inl hr
  · rw [e] at h
    cases h
  · rw [e] at h
    cases h
  · exact .inr ⟨hun, hfull⟩

/-- The addresses of a range before its `k`-th, that one, and the rest. -/
theorem exists_addressesFrom_split (lo : I32) {k n : Nat} (h : k < n) :
    ∃ rest, addressesFrom lo n = addressesFrom lo k ++ BitVec.ofInt 32 (lo.toInt + k) :: rest := by
  obtain ⟨m, rfl⟩ := Nat.exists_eq_add_of_lt h
  have hrange : List.range (k + m + 1) = List.range k ++ k :: (List.range m).map (k + 1 + ·) := by
    rw [Nat.add_right_comm, List.range_add, List.range_succ, List.append_assoc, List.singleton_append]
  unfold addressesFrom
  rw [hrange, List.map_append, List.map_cons]
  exact ⟨_, rfl⟩

end InOrder

/-! ### What an address reads as -/

section Peek

variable {s : State} {va : I32}

theorem peek_of_not_inRange (h : ¬ PageInRange s.config va) : peek va s = none := by
  rw [PageInRange] at h
  exact if_pos (by omega)

theorem peek_of_inRange (h : PageInRange s.config va) :
    peek va s = (frameOf (pageOf s.config va).toNat s.space.pageTable).map fun f =>
      physRead (f * s.config.pageSize + offsetOf s.config va) s := by
  rw [PageInRange] at h
  exact if_neg (by omega)

/-- What an address reads as later is what it translated to earlier: by the binding that the translation left, or, after
a failure, by there being none then and none later. -/
theorem peek_after_translate {a : AddressSpace} (vas : List I32)
    (hspace : s.space = spaceAfter s.config vas (a.translate s.config va).2) :
    peek va s = (a.translate s.config va).1.map fun pa => physRead pa s := by
  cases hpa : (a.translate s.config va).1 with
  | some pa =>
    obtain ⟨hr, f, hf, rfl⟩ := translate_some hpa
    rw [peek_of_inRange hr, hspace, spaceAfter_keeps_binding s.config vas hf]
    rfl
  | none =>
    rcases translate_none_causes hpa with hr | ⟨hun, hfull⟩
    · exact peek_of_not_inRange hr
    · rw [translate_none hpa, spaceAfter_exhausted hfull] at hspace
      by_cases hr : PageInRange s.config va
      · rw [peek_of_inRange hr, hspace, hun]
        rfl
      · exact peek_of_not_inRange hr

end Peek

/-! ### DUMP (R136) -/

theorem toInt_ofInt_of_valid {c : Configuration} (hc : c.accepted = true) {z : Int} (h0 : 0 ≤ z)
    (hlt : z < c.virtualSize) : (BitVec.ofInt 32 z).toInt = z := by
  obtain ⟨-, -, -, -, -, hmax, -⟩ := (accepted_iff c).mp hc
  simp only [Config.maxSize] at hmax
  rw [BitVec.toInt_ofInt]
  exact Int.bmod_eq_of_le (by omega) (by omega)

theorem dumpWords_state (n : Nat) (lo : I32) (s : State) :
    (dumpWords lo n s).1 = { s with space := spaceAfter s.config (addressesFrom lo n) s.space } := by
  rw [← dumpWords_spaceAfter, ← dumpWords_frame]

/-- A valid address that answers Fail is on an unmapped page, with no frame free. -/
theorem exhausted_of_fail {c : Configuration} (hc : c.accepted = true) {a : AddressSpace} {z : Int} (h0 : 0 ≤ z)
    (hlt : z < c.virtualSize) (hfail : (a.translate c (BitVec.ofInt 32 z)).1 = none) :
    frameOf (z / c.pageSize).toNat a.pageTable = none ∧ firstFree a.occupied 0 c.frameCount = none := by
  have hvalue := toInt_ofInt_of_valid hc h0 hlt
  have hpage : pageOf c (BitVec.ofInt 32 z) = z / c.pageSize := by rw [pageOf, hvalue]
  have hr : PageInRange c (BitVec.ofInt 32 z) := (pageInRange_iff hc _).mpr (hvalue.symm ▸ ⟨h0, hlt⟩)
  rw [← hpage]
  exact (translate_none_causes hfail).resolve_left (not_not.mpr hr)

/-- Settles O52: the addresses are translated in order, and what one of them answered holds to the end of the dump. -/
theorem dumpReadsTheRangeAndOnlyBindsPages : Obligations.DumpReadsTheRangeAndOnlyBindsPages := by
  unfold Obligations.DumpReadsTheRangeAndOnlyBindsPages
  intro lo hi s hc
  refine ⟨fun hruns => if_pos hruns, fun hidle => ⟨_, _, if_neg (by simp [hidle]), dumpWords_state _ lo s,
    dumpWords_length _ lo s, ?_, fun k word hword => ?_⟩⟩
  · intro page f hf
    rw [dumpWords_spaceAfter]
    exact spaceAfter_keeps_binding s.config _ hf
  have hk : k < (hi.toInt - lo.toInt).toNat := by
    obtain ⟨hlt, -⟩ := List.getElem?_eq_some_iff.mp hword
    rwa [dumpWords_length] at hlt
  have hanswer := dumpWords_answer _ lo s hword
  obtain ⟨rest, hsplit⟩ := exists_addressesFrom_split lo hk
  rw [dumpWords_state, hsplit, spaceAfter_append, spaceAfter_cons]
  refine ⟨hanswer, hanswer.trans ?_, fun hfail h0 hlt => ?_⟩
  · rw [peek_after_translate rest rfl]
    rfl
  · rw [hfail, eq_comm, Option.map_eq_none_iff] at hanswer
    obtain ⟨hun, hfull⟩ := exhausted_of_fail hc h0 hlt hanswer
    dsimp only
    rw [translate_none hanswer, spaceAfter_exhausted hfull]
    refine ⟨Option.eq_none_iff_forall_ne_some.mp hun, fun f hf => ?_⟩
    exact (firstFree_eq_none _ _ _).mp hfull f (by omega) (by omega)

/-! ### The standalone driver (20_memory.md R46) -/

section Driver

variable {c : Configuration} {va : I32} {vas rest : List I32} {a : AddressSpace} {pa : Nat}

theorem driverRun_cons_some (h : (a.translate c va).1 = some pa) :
    driverRun c (va :: rest) a =
      ⟨pa :: (driverRun c rest (a.translate c va).2).answered, (driverRun c rest (a.translate c va).2).stoppedAt,
        (driverRun c rest (a.translate c va).2).space⟩ := by
  have hpair : a.translate c va = (some pa, (a.translate c va).2) := Prod.ext h rfl
  rw [driverRun, hpair]

theorem driverRun_cons_none (h : (a.translate c va).1 = none) : driverRun c (va :: rest) a = ⟨[], some va, a⟩ := by
  have hpair : a.translate c va = (none, a) := Prod.ext h (translate_none h)
  rw [driverRun, hpair]

/-- A driver that does not stop has answered every address. -/
theorem driverRun_completed (h : (driverRun c vas a).stoppedAt = none) :
    (driverRun c vas a).answered.length = vas.length ∧ (driverRun c vas a).space = spaceAfter c vas a := by
  induction vas generalizing a with
  | nil => exact ⟨rfl, rfl⟩
  | cons va rest ih =>
    cases hpa : (a.translate c va).1 with
    | some pa =>
      rw [driverRun_cons_some hpa] at h ⊢
      obtain ⟨hlength, hspace⟩ := ih h
      exact ⟨congrArg (· + 1) hlength, hspace⟩
    | none =>
      rw [driverRun_cons_none hpa] at h
      cases h

/-- A driver that stops has answered the addresses before the one that fails. -/
theorem driverRun_stopped (h : (driverRun c vas a).stoppedAt = some va) :
    ∃ before after, vas = before ++ va :: after ∧ (driverRun c vas a).answered.length = before.length ∧
      (driverRun c vas a).space = spaceAfter c before a ∧
      (spaceAfter c before a).translate c va = (none, spaceAfter c before a) := by
  induction vas generalizing a with
  | nil => cases h
  | cons va₀ rest ih =>
    cases hpa : (a.translate c va₀).1 with
    | some pa =>
      rw [driverRun_cons_some hpa] at h ⊢
      obtain ⟨before, after, rfl, hlength, hspace, hfail⟩ := ih h
      exact ⟨va₀ :: before, after, rfl, congrArg (· + 1) hlength, hspace, hfail⟩
    | none =>
      rw [driverRun_cons_none hpa] at h ⊢
      cases h
      exact ⟨[], rest, rfl, rfl, rfl, Prod.ext hpa (translate_none hpa)⟩

theorem driverRun_keeps_binding {page f : Nat} (h : frameOf page a.pageTable = some f) :
    frameOf page (driverRun c vas a).space.pageTable = some f :=
  driverRun_space (P := fun b => frameOf page b.pageTable = some f) c vas a
    (fun b va => translate_keeps_binding c va b) h

/-- Each answer is that of the translator where the addresses before it left the space, and still is at the end. -/
theorem driverRun_answer {k : Nat} (hva : vas[k]? = some va) (hpa : (driverRun c vas a).answered[k]? = some pa) :
    ((spaceAfter c (vas.take k) a).translate c va).1 = some pa ∧
      (driverRun c vas a).space.translate c va = (some pa, (driverRun c vas a).space) := by
  induction vas generalizing a k with
  | nil => cases hva
  | cons va₀ rest ih =>
    cases hva₀ : (a.translate c va₀).1 with
    | none =>
      rw [driverRun_cons_none hva₀] at hpa
      cases hpa
    | some qa =>
      rw [driverRun_cons_some hva₀] at hpa ⊢
      cases k with
      | zero =>
        cases hva
        cases hpa
        exact ⟨hva₀, translate_again hva₀ fun _ _ => driverRun_keeps_binding⟩
      | succ k => exact ih hva hpa

end Driver

/-- Settles O54: one induction on the addresses for each clause, the last by what every translation keeps. -/
theorem standaloneDriverStopsAtItsFirstFailure : Obligations.StandaloneDriverStopsAtItsFirstFailure := by
  unfold Obligations.StandaloneDriverStopsAtItsFirstFailure
  intro c vas a
  exact ⟨driverRun_completed, fun _ => driverRun_stopped, fun _ _ _ => driverRun_answer,
    fun _ _ => driverRun_keeps_binding⟩

end Sys2Proof.Machine
end

section
/-! SUPPORT. The final observation, and LOAD from the reset state: what each virtual address reads as
(70_reset_and_hazards.md R132, R133, R140). -/

namespace Sys2Proof.Machine

/-! ### The page and the offset of an address given as a natural number -/

section Address

variable {c : Configuration} {n : Nat}

theorem pageOf_ofNat (h : n ≤ 2147483647) : pageOf c (BitVec.ofNat 32 n) = (n / c.pageSize : Nat) := by
  rw [pageOf, toInt_ofNat_small h, Int.natCast_ediv]

theorem toNat_pageOf_ofNat (h : n ≤ 2147483647) : (pageOf c (BitVec.ofNat 32 n)).toNat = n / c.pageSize := by
  rw [pageOf_ofNat h, Int.toNat_natCast]

theorem offsetOf_ofNat (h : n ≤ 2147483647) : offsetOf c (BitVec.ofNat 32 n) = n % c.pageSize := by
  rw [offsetOf, toInt_ofNat_small h, ← Int.natCast_emod, Int.toNat_natCast]

theorem pageInRange_ofNat_iff (hc : c.accepted = true) (h : n ≤ 2147483647) :
    PageInRange c (BitVec.ofNat 32 n) ↔ n < c.virtualSize := by
  rw [pageInRange_iff hc, toInt_ofNat_small h]
  omega

theorem le_of_lt_virtualSize (hc : c.accepted = true) (h : n < c.virtualSize) : n ≤ 2147483647 := by
  obtain ⟨-, -, -, -, -, hmax, -⟩ := (accepted_iff c).mp hc
  simp only [Config.maxSize] at hmax
  omega

/-- A valid address reads as the slot of its page's frame. -/
theorem peek_ofNat {s : State} (hc : s.config.accepted = true) (h : n < s.config.virtualSize) :
    peek (BitVec.ofNat 32 n) s = (frameOf (n / s.config.pageSize) s.space.pageTable).map fun f =>
      physRead (f * s.config.pageSize + n % s.config.pageSize) s := by
  have hsmall := le_of_lt_virtualSize hc h
  rw [peek_of_inRange ((pageInRange_ofNat_iff hc hsmall).mpr h), toNat_pageOf_ofNat hsmall, offsetOf_ofNat hsmall]

end Address

/-! ### The final observation (R140) -/

section Observe

variable {s t : State} {o : Observation}

theorem observe_of_halted (h : s.status = .halted) :
    observe s = some ⟨portStatus s, s.regs, s.pc, mappedWords s, s.space.pageTable, s.space.occupied, portOut s⟩ := by
  rw [observe, h]

theorem observe_of_running (h : s.status = .running) : observe s = none := by
  rw [observe, h]

theorem observe_isSome_iff (s : State) : (observe s).isSome ↔ s.status = .halted := by
  cases h : s.status with
  | running => simp [observe_of_running h]
  | halted => simp [observe_of_halted h]

theorem status_of_observe (h : observe s = some o) : s.status = .halted :=
  (observe_isSome_iff s).mp (by rw [h]; rfl)

theorem eq_of_observe (h : observe s = some o) :
    o = ⟨portStatus s, s.regs, s.pc, mappedWords s, s.space.pageTable, s.space.occupied, portOut s⟩ :=
  Option.some.inj (h.symm.trans (observe_of_halted (status_of_observe h)))

/-- The values of the OUT port are those of the trace's `Out` events, in order. -/
theorem map_out_portOut (s : State) : (portOut s).map .out = s.trace.filter Event.isOut := by
  unfold portOut
  induction s.trace with
  | nil => rfl
  | cons e rest ih =>
    cases e with
    | out v => exact congrArg (Event.out v :: ·) ih
    | interrupt k v => exact ih
    | invalidParam => exact ih
    | stopNote => exact ih

theorem run_of_halted {k : Nat} (h : s.status = .halted) (hrun : Sys2Proof.core.run k s = .next t) : t = s := by
  refine run_keeps (P := fun u => u = s) ?_ rfl hrun
  rintro u v rfl huv
  exact (Host.Outcome.next.inj ((step_of_halted h).symm.trans huv)).symm

/-- In a safe state the memory observed is what the addresses of mapped pages read as. -/
theorem mem_mappedWords_iff (h : Safe s) (a : Nat) (w : Word) :
    (a, w) ∈ mappedWords s ↔ a < s.config.virtualSize ∧ peek (BitVec.ofNat 32 a) s = some w := by
  have hc := h.config_accepted
  obtain ⟨-, -, hsize, -⟩ := (accepted_iff s.config).mp hc
  simp only [mappedWords, List.mem_flatMap, List.mem_map, List.mem_range, Prod.mk.injEq]
  constructor
  · rintro ⟨⟨page, f⟩, hentry, offset, hoffset, rfl, rfl⟩
    have hf : frameOf page s.space.pageTable = some f := lookup_of_mem h.space.pages_rise hentry
    have hvalid : page * s.config.pageSize + offset < s.config.virtualSize := by
      have hpages := Nat.mul_le_mul_right s.config.pageSize (h.space.pages_in_range page f hf)
      rw [pageCount_mul hc, Nat.succ_mul] at hpages
      omega
    refine ⟨hvalid, ?_⟩
    rw [peek_ofNat hc hvalid, Nat.mul_comm page, Nat.mul_add_div hsize, Nat.mul_add_mod, Nat.div_eq_of_lt hoffset,
      Nat.mod_eq_of_lt hoffset, Nat.add_zero, hf, Option.map_some]
  · rintro ⟨hvalid, hpeek⟩
    rw [peek_ofNat hc hvalid, Option.map_eq_some_iff] at hpeek
    obtain ⟨f, hf, rfl⟩ := hpeek
    exact ⟨(a / s.config.pageSize, f), mem_of_lookup hf, a % s.config.pageSize, Nat.mod_lt a hsize,
      Nat.div_add_mod' a s.config.pageSize, rfl⟩

end Observe

/-- Settles O53: the observation is a function of the halted state, which no step changes. -/
theorem finalObservationIsThatOfTheHaltedState : Obligations.FinalObservationIsThatOfTheHaltedState := by
  unfold Obligations.FinalObservationIsThatOfTheHaltedState
  refine ⟨observe_isSome_iff, fun s o ho => ?_, fun k s t o ho hrun => ?_, fun s o h ho a w => ?_⟩
  · rw [eq_of_observe ho]
    exact ⟨portStatus_eq_iff.mpr ⟨status_of_observe ho, rfl⟩, rfl, rfl, rfl, rfl, rfl, map_out_portOut s⟩
  · rw [run_of_halted (status_of_observe ho) hrun, ho]
  · rw [eq_of_observe ho]
    exact mem_mappedWords_iff h a w

/-! ### LOAD from the reset state (R132) -/

/-- `s` has loaded the Words `done` from address 0 on: each page that holds one of them is bound to the frame of its own
number, no other page is bound, and so each Word stands at its own index. -/
structure Loaded (c : Configuration) (done : List Word) (s : State) : Prop where
  config : s.config = c
  space : SpaceInv c s.space
  fits_virtual : done.length ≤ c.virtualSize
  fits_physical : done.length ≤ c.physicalSize
  pages : ∀ page, frameOf page s.space.pageTable = if page * c.pageSize < done.length then some page else none
  words : ∀ (i : Nat) (w : Word), done[i]? = some w → physRead i s = w

section Load

variable {c : Configuration} {done : List Word} {s : State}

theorem loaded_nil (c : Configuration) (r : Vector I32 Config.nRegs) : Loaded c [] (State.construct c r) where
  config := rfl
  space := spaceInv_empty c
  fits_virtual := Nat.zero_le _
  fits_physical := Nat.zero_le _
  pages := fun _ => rfl
  words := fun _ _ h => by cases h

/-- After whole pages of Words, as many pages are mapped. -/
theorem Loaded.length_pageTable (h : Loaded c done s) (hsize : 0 < c.pageSize) {q : Nat}
    (hq : q * c.pageSize = done.length) : s.space.pageTable.length = q := by
  refine length_of_pages h.space fun page => ?_
  simp only [h.pages, ← hq, Nat.mul_lt_mul_right hsize]

/-- After whole pages of Words, the next page is not mapped. -/
theorem Loaded.unmapped (h : Loaded c done s) {q : Nat} (hq : q * c.pageSize = done.length) :
    frameOf q s.space.pageTable = none := by
  rw [h.pages, if_neg (by omega)]

/-- After whole pages of Words, the next free frame is the one of the next page's number, if there are that many. -/
theorem Loaded.firstFree_eq (h : Loaded c done s) (hsize : 0 < c.pageSize) {q : Nat}
    (hq : q * c.pageSize = done.length) :
    firstFree s.space.occupied 0 c.frameCount = if q < c.frameCount then some q else none := by
  rw [firstFree_of_inv h.space, h.length_pageTable hsize hq]

/-- A first reference with a free frame. -/
theorem translate_fresh {va : I32} {a : AddressSpace} {f : Nat} (hr : PageInRange c va)
    (hun : frameOf (pageOf c va).toNat a.pageTable = none) (hfree : firstFree a.occupied 0 c.frameCount = some f) :
    a.translate c va = (some (f * c.pageSize + offsetOf c va),
      ⟨assign (pageOf c va).toNat f a.pageTable, occupy f a.occupied⟩) := by
  rcases translate_cases c va a with ⟨hn, _⟩ | ⟨_, g, hg, _⟩ | ⟨_, _, g, hg, e⟩ | ⟨_, _, hnone, _⟩
  · exact absurd hr hn
  · cases hun.symm.trans hg
  · cases hfree.symm.trans hg
    exact e
  · cases hfree.symm.trans hnone

/-- A Word that opens a page: the page is bound to the frame of its own number. -/
theorem Loaded.translate_opens (hc : c.accepted = true) (h : Loaded c done s) (hvirtual : done.length < c.virtualSize)
    (hphysical : done.length < c.physicalSize) {q : Nat} (hq : q * c.pageSize = done.length) :
    ∃ a, s.space.translate c (BitVec.ofNat 32 done.length) = (some done.length, a) ∧
      ∀ page, frameOf page a.pageTable = if page * c.pageSize < done.length + 1 then some page else none := by
  obtain ⟨-, -, hsize, -⟩ := (accepted_iff c).mp hc
  have hsmall := le_of_lt_virtualSize hc hvirtual
  have hr := (pageInRange_ofNat_iff hc hsmall).mpr hvirtual
  have hpage : (pageOf c (BitVec.ofNat 32 done.length)).toNat = q := by
    rw [toNat_pageOf_ofNat hsmall, ← hq, Nat.mul_div_cancel _ hsize]
  have hoffset : offsetOf c (BitVec.ofNat 32 done.length) = 0 := by
    rw [offsetOf_ofNat hsmall, ← hq, Nat.mul_mod_left]
  have hcount : q < c.frameCount := by
    rwa [← frameCount_mul hc, ← hq, Nat.mul_lt_mul_right hsize] at hphysical
  have hfresh := translate_fresh hr (hpage.symm ▸ h.unmapped hq) ((h.firstFree_eq hsize hq).trans (if_pos hcount))
  rw [hpage, hoffset, Nat.add_zero, hq] at hfresh
  refine ⟨_, hfresh, fun page => ?_⟩
  by_cases hpq : page = q
  · rw [hpq, frameOf_assign_same, if_pos (by omega)]
  · have hne : page * c.pageSize ≠ done.length := fun heq => hpq (Nat.eq_of_mul_eq_mul_right hsize (heq.trans hq.symm))
    rw [frameOf_assign_ne hpq, h.pages]
    exact if_congr (by omega) rfl rfl

/-- A Word inside a page: the page is mapped already. -/
theorem Loaded.translate_within (hc : c.accepted = true) (h : Loaded c done s)
    (hvirtual : done.length < c.virtualSize) (hwithin : ∀ q, q * c.pageSize ≠ done.length) :
    s.space.translate c (BitVec.ofNat 32 done.length) = (some done.length, s.space) := by
  have hsmall := le_of_lt_virtualSize hc hvirtual
  have hr := (pageInRange_ofNat_iff hc hsmall).mpr hvirtual
  have hbelow := Nat.div_mul_le_self done.length c.pageSize
  have hne := hwithin (done.length / c.pageSize)
  have hmapped : frameOf (done.length / c.pageSize) s.space.pageTable = some (done.length / c.pageSize) := by
    rw [h.pages, if_pos (by omega)]
  rw [translate_mapped hr (by rw [toNat_pageOf_ofNat hsmall, hmapped]), offsetOf_ofNat hsmall, Nat.div_add_mod']

/-- The next address of a load that still fits translates to the physical address of the same number, and its page is
then bound to the frame of its own number. -/
theorem Loaded.translate_next (hc : c.accepted = true) (h : Loaded c done s) (hvirtual : done.length < c.virtualSize)
    (hphysical : done.length < c.physicalSize) :
    ∃ a, s.space.translate c (BitVec.ofNat 32 done.length) = (some done.length, a) ∧
      ∀ page, frameOf page a.pageTable = if page * c.pageSize < done.length + 1 then some page else none := by
  by_cases hopens : ∃ q, q * c.pageSize = done.length
  · obtain ⟨q, hq⟩ := hopens
    exact h.translate_opens hc hvirtual hphysical hq
  · have hwithin := not_exists.mp hopens
    refine ⟨_, h.translate_within hc hvirtual hwithin, fun page => ?_⟩
    have hne := hwithin page
    rw [h.pages]
    exact if_congr (by omega) rfl rfl

/-- The next address of a load that no longer fits does not translate. -/
theorem Loaded.translate_full (hc : c.accepted = true) (h : Loaded c done s)
    (hfull : ¬ (done.length < c.virtualSize ∧ done.length < c.physicalSize)) :
    (s.space.translate c (BitVec.ofNat 32 done.length)).1 = none := by
  obtain ⟨-, -, hsize, -, -, hmax, -⟩ := (accepted_iff c).mp hc
  have hsmall : done.length ≤ 2147483647 := by
    have hfits := h.fits_virtual
    simp only [Config.maxSize] at hmax
    omega
  by_contra hsome
  obtain ⟨pa, hpa⟩ := Option.ne_none_iff_exists'.mp hsome
  obtain ⟨hr, f, hf, rfl⟩ := translate_some hpa
  have hvirtual := (pageInRange_ofNat_iff hc hsmall).mp hr
  have hq : c.frameCount * c.pageSize = done.length := by
    have hfits := h.fits_physical
    rw [frameCount_mul hc]
    omega
  have hnone := (h.firstFree_eq hsize hq).trans (if_neg (lt_irrefl _))
  have hpage : (pageOf c (BitVec.ofNat 32 done.length)).toNat = c.frameCount := by
    rw [toNat_pageOf_ofNat hsmall, ← hq, Nat.mul_div_cancel _ hsize]
  rw [translate_exhausted hnone, hpage, h.unmapped hq] at hf
  cases hf

/-! ### The loop (R132, R133) -/

variable {i pa : Nat} {w : Word} {rest : List Word}

theorem loadWords_cons_some (h : translated (BitVec.ofNat 32 i) s = some pa) :
    loadWords i (w :: rest) s = loadWords (i + 1) rest (physWrite pa w (afterTranslate (BitVec.ofNat 32 i) s)) := by
  rw [loadWords, Config.loadBase, Nat.zero_add, h]

theorem loadWords_cons_none (h : translated (BitVec.ofNat 32 i) s = none) :
    loadWords i (w :: rest) s = { s with boot := .loadFailed i } := by
  rw [loadWords, Config.loadBase, Nat.zero_add, h, afterTranslate_of_none h]

/-- One turn of the loop: the next Word is placed at its own index. -/
theorem Loaded.next (hc : c.accepted = true) (h : Loaded c done s) (hvirtual : done.length < c.virtualSize)
    (hphysical : done.length < c.physicalSize) (w : Word) :
    translated (BitVec.ofNat 32 done.length) s = some done.length ∧
      Loaded c (done ++ [w]) (physWrite done.length w (afterTranslate (BitVec.ofNat 32 done.length) s)) := by
  obtain ⟨a, ha, hpages⟩ := h.translate_next hc hvirtual hphysical
  have hinv := translate_inv h.space (BitVec.ofNat 32 done.length)
  have hlength : (done ++ [w]).length = done.length + 1 := by simp
  rw [ha] at hinv
  rw [← h.config] at ha
  have hspace : (afterTranslate (BitVec.ofNat 32 done.length) s).space = a := by rw [afterTranslate_space, ha]
  refine ⟨by rw [translated, ha], h.config, ?_, by omega, by omega, ?_, fun i v hv => ?_⟩
  · rwa [physWrite_space, hspace]
  · rwa [physWrite_space, hspace, hlength]
  · by_cases hi : i = done.length
    · subst hi
      rw [List.getElem?_concat_length] at hv
      rw [physRead_physWrite_same, Option.some.inj hv]
    · obtain ⟨hlt, -⟩ := List.getElem?_eq_some_iff.mp hv
      rw [List.getElem?_append_left (by omega)] at hv
      rw [physRead_physWrite_ne _ _ _ _ hi, physRead_afterTranslate, h.words i v hv]

/-- The loop places the rest of an image that fits, and fails on one that does not. -/
theorem Loaded.loadWords_outcome (hc : c.accepted = true) (h : Loaded c done s) (rest : List Word) :
    (done.length + rest.length ≤ c.virtualSize ∧ done.length + rest.length ≤ c.physicalSize →
      (loadWords done.length rest s).boot = .loaded ∧
        Loaded c (done ++ rest) (loadWords done.length rest s)) ∧
    (¬ (done.length + rest.length ≤ c.virtualSize ∧ done.length + rest.length ≤ c.physicalSize) →
      ∃ i, i < done.length + rest.length ∧ (loadWords done.length rest s).boot = .loadFailed i) := by
  induction rest generalizing done s with
  | nil =>
    refine ⟨fun _ => ⟨rfl, ?_⟩, fun hbig => absurd ⟨h.fits_virtual, h.fits_physical⟩ hbig⟩
    rw [List.append_nil]
    exact ⟨h.config, h.space, h.fits_virtual, h.fits_physical, h.pages, h.words⟩
  | cons w rest ih =>
    by_cases hfit : done.length < c.virtualSize ∧ done.length < c.physicalSize
    · obtain ⟨hpa, hnext⟩ := h.next hc hfit.1 hfit.2 w
      have hih := ih hnext
      rw [loadWords_cons_some hpa, List.length_cons]
      simpa [Nat.add_assoc, Nat.add_comm 1] using hih
    · have hnone : translated (BitVec.ofNat 32 done.length) s = none := by
        rw [translated, h.config, h.translate_full hc hfit]
      rw [loadWords_cons_none hnone, List.length_cons]
      exact ⟨fun hsmall => absurd ⟨by omega, by omega⟩ hfit, fun _ => ⟨done.length, by omega, rfl⟩⟩

end Load

/-- A page number is below the number of pages that `n` Words need exactly when the page begins below `n`. -/
theorem lt_pages_iff {size : Nat} (hsize : 0 < size) (page n : Nat) :
    page < (n + size - 1) / size ↔ page * size < n := by
  rw [Nat.lt_iff_add_one_le, Nat.le_div_iff_mul_le hsize, Nat.succ_mul]
  omega

/-- A loaded Word reads back at its own virtual address. -/
theorem Loaded.peek_eq {c : Configuration} {image : List Word} {t : State} (hc : c.accepted = true)
    (h : Loaded c image t) {i : Nat} {w : Word} (hw : image[i]? = some w) : peek (BitVec.ofNat 32 i) t = some w := by
  obtain ⟨hlt, -⟩ := List.getElem?_eq_some_iff.mp hw
  have hvalid : i < c.virtualSize := lt_of_lt_of_le hlt h.fits_virtual
  have hbelow := Nat.div_mul_le_self i c.pageSize
  have hwords := h.words i w hw
  obtain ⟨rfl, -, -, -, hpages, -⟩ := h
  rw [peek_ofNat hc hvalid, hpages, if_pos (by omega), Option.map_some, Nat.div_add_mod', hwords]

/-- Settles O50: the loop from the constructed state keeps `Loaded` as long as the image fits. -/
theorem loadFromResetSucceedsExactlyWhenTheImageFits :
    Obligations.LoadFromResetSucceedsExactlyWhenTheImageFits := by
  unfold Obligations.LoadFromResetSucceedsExactlyWhenTheImageFits
  intro c r image hc
  obtain ⟨-, -, hsize, -⟩ := (accepted_iff c).mp hc
  obtain ⟨hregs, -, hpf, hstatus, htrace, -⟩ := loadWords_keeps image 0 (State.construct c r)
  obtain ⟨hfits, hbig⟩ := (loaded_nil c r).loadWords_outcome hc image
  simp only [List.length_nil, Nat.zero_add, List.nil_append] at hfits hbig
  refine ⟨_, if_pos rfl, hpf, hstatus, hregs, htrace, fun hsmall => ?_, fun hlarge => ?_⟩
  · obtain ⟨hboot, hloaded⟩ := hfits hsmall
    refine ⟨hboot, fun page => ?_, fun i w => hloaded.peek_eq hc⟩
    rw [hloaded.pages]
    exact if_congr (lt_pages_iff hsize page image.length).symm rfl rfl
  · obtain ⟨i, hi, hboot⟩ := hbig hlarge
    refine ⟨⟨i, hi, hboot⟩, fun a => portStart_of_not_loaded ?_ a⟩
    rw [hboot]
    exact BootPhase.noConfusion

end Sys2Proof.Machine
end
